-- ==== Sys2Proof/Word.lean ====
section
/-!
DEFINITION. The machine's word, its register index, and the plainest arithmetic on words
(spec/00_scope.md R7, R8; spec/10_state.md R13).
-/

namespace Sys2Proof

/-- A word: an unsigned 16-bit integer, 0 to 65535 (00 R7). Registers, the PC, memory cells,
addresses and immediates are all words. -/
abbrev Word := BitVec 16

/-- A register index 0 to 7 (10 R13). A 3-bit field names one of the eight, none is out of
range (10 R14), so the type holds exactly the legal values. -/
abbrev Reg := Fin 8

/-- `wrap16(v)` of 00 R8: the word congruent to the integer `v` modulo 65536. -/
def wrap16 (v : Int) : Word := BitVec.ofInt 16 v

/-- `NOT16(v)` of 00 R8: the complement of all 16 bits. -/
def not16 (v : Word) : Word := ~~~v

end Sys2Proof
end

