-- ==== Sys2Proof/Config.lean ====
section
/-!
DEFINITION. The parameters of the machine (spec/00_scope.md R5) and the values the model names
where the spec leaves the reset contents open. The field layout and the opcode numbers, which the
spec also calls parameters (00 R6), are in Sys2Proof/Machine/Layout.lean.
-/

namespace Sys2Proof.Config

/-- `NREG`, the number of general registers (00 R5). -/
def numRegs : Nat := 8

/-- `MEMWORDS`, the number of memory words (00 R5, 10 R21). -/
def memWords : Nat := 65536

/-- The PC after reset (10 R23). -/
def resetPc : Word := 0

/-- What each general register holds in `State.reset`. DESIGN CHOICE, unsafe (log entry 2): the
spec says any word (10 R24); `State.init` takes any. -/
def resetReg : Word := 0

/-- What a memory word reads as when the memory list does not name it. DESIGN CHOICE, unsafe (log
entry 3): the spec says any word after reset (10 R25); `State.init` takes any memory. -/
def unwrittenWord : Word := 0

end Sys2Proof.Config
end

