-- ==== Sys2Proof/Syntax.lean ====
section
/-!
DEFINITION. The instructions: one constructor for each of the 32 rows of spec/opcode_table.json,
the 22 operations of spec/30_encoding.md R51 and the ten invalid opcode values (R57).
-/

namespace Sys2Proof

/-- An instruction as the decoder hands it to the machine. Operands stand in the order of the
assembler (30 R70). `d`, `a`, `b` are the registers of the fields `dest`, `srcA`, `srcB`; `nw` is
the next word (30 R54). A field the operation does not use is no part of the instruction (30 R53). -/
inductive Instr where
  /-- no operation (40 R80) -/
  | nop
  /-- copy a register (40 R81) -/
  | mv (d a : Reg)
  /-- load immediate (40 R82) -/
  | li (d : Reg) (nw : Word)
  /-- load through a pointer held in memory (41 R84) -/
  | ld (d : Reg) (nw : Word)
  /-- load register indirect (41 R85) -/
  | ldind (d a : Reg)
  /-- load with register base and immediate offset (41 R86) -/
  | ldio (d a : Reg) (nw : Word)
  /-- store with register base and immediate offset (41 R87) -/
  | stio (a b : Reg) (nw : Word)
  /-- add two registers (42 R90) -/
  | add (d a b : Reg)
  /-- subtract register `b` from register `a` (42 R91) -/
  | sub (d a b : Reg)
  /-- two's-complement negate (42 R92) -/
  | neg (d a : Reg)
  /-- bitwise exclusive or (42 R93) -/
  | xor (d a b : Reg)
  /-- bitwise not-and (42 R94) -/
  | nand (d a b : Reg)
  /-- bitwise and (42 R95) -/
  | and (d a b : Reg)
  /-- bitwise or (42 R96) -/
  | or (d a b : Reg)
  /-- bitwise complement (42 R97) -/
  | not (d a : Reg)
  /-- jump to the address in a register (43 R102) -/
  | j (a : Reg)
  /-- jump if a register is not zero (43 R103) -/
  | jnz (a : Reg) (nw : Word)
  /-- jump to an immediate address (43 R104) -/
  | jimm (nw : Word)
  /-- add immediate (42 R98) -/
  | addi (d a : Reg) (nw : Word)
  /-- store absolute, the address first (41 R88) -/
  | st (nw : Word) (a : Reg)
  /-- jump if a register is zero (43 R105) -/
  | jz (a : Reg) (nw : Word)
  /-- jump if a register is negative (43 R106) -/
  | jn (a : Reg) (nw : Word)
  /-- opcode value 22, a no-operation (40 R83) -/
  | invalid22
  /-- opcode value 23, a no-operation (40 R83) -/
  | invalid23
  /-- opcode value 24, a no-operation (40 R83) -/
  | invalid24
  /-- opcode value 25, a no-operation (40 R83) -/
  | invalid25
  /-- opcode value 26, a no-operation (40 R83) -/
  | invalid26
  /-- opcode value 27, a no-operation (40 R83) -/
  | invalid27
  /-- opcode value 28, a no-operation (40 R83) -/
  | invalid28
  /-- opcode value 29, a no-operation (40 R83) -/
  | invalid29
  /-- opcode value 30, a no-operation (40 R83) -/
  | invalid30
  /-- opcode value 31, a no-operation (40 R83) -/
  | invalid31
deriving DecidableEq, Repr

end Sys2Proof
end

