-- ==== Sys2Proof/Machine/Layout.lean ====
section
/-!
DEFINITION. The two parameters of the encoding that the spec decides itself and isolates, the field
positions (spec/30_encoding.md R49, decision D1) and the opcode numbers (R51, decision D2), and the
operand column of R51 and R70, from which an operation's format (R52) and length (R48) follow. Every
other file uses these by name, so that one of them can be replaced here and nowhere else.
-/

namespace Sys2Proof.Machine

/-- The low bit of the opcode field `I[4:0]` (30 R49). UNVERIFIED, the spec's decision D1 (log entry 4). -/
def opLo : Nat := 0

/-- The width of the opcode field (30 R47). -/
def opWidth : Nat := 5

/-- The low bit of the `dest` field `I[7:5]` (30 R49). UNVERIFIED, decision D1 (log entry 4). -/
def destLo : Nat := 5

/-- The low bit of the `srcA` field `I[10:8]` (30 R49). UNVERIFIED, decision D1 (log entry 4). -/
def srcALo : Nat := 8

/-- The low bit of the `srcB` field `I[13:11]` (30 R49). UNVERIFIED, decision D1 (log entry 4). -/
def srcBLo : Nat := 11

/-- The width of a register field (30 R47). -/
def regWidth : Nat := 3

/-- The operation an opcode value selects, by name: the 22 of 30 R51, and one for each of the ten
invalid values, since each is a row of spec/opcode_table.json. -/
inductive Op where
  | nop | mv | li | ld | ldind | ldio | stio | add
  | sub | neg | xor | nand | and | or | not | j
  | jnz | jimm | addi | st | jz | jn | invalid22 | invalid23
  | invalid24 | invalid25 | invalid26 | invalid27 | invalid28 | invalid29 | invalid30 | invalid31
deriving DecidableEq, Repr

/-- The opcode number of an operation (30 R51). UNVERIFIED, the spec's decision D2 (log entry 5): the
rows of the source's table in order; the invalid values are the rest, 22 to 31 (30 R57). -/
def opNumber (o : Op) : Nat :=
  match o with
  | .nop => 0
  | .mv => 1
  | .li => 2
  | .ld => 3
  | .ldind => 4
  | .ldio => 5
  | .stio => 6
  | .add => 7
  | .sub => 8
  | .neg => 9
  | .xor => 10
  | .nand => 11
  | .and => 12
  | .or => 13
  | .not => 14
  | .j => 15
  | .jnz => 16
  | .jimm => 17
  | .addi => 18
  | .st => 19
  | .jz => 20
  | .jn => 21
  | .invalid22 => 22
  | .invalid23 => 23
  | .invalid24 => 24
  | .invalid25 => 25
  | .invalid26 => 26
  | .invalid27 => 27
  | .invalid28 => 28
  | .invalid29 => 29
  | .invalid30 => 30
  | .invalid31 => 31

/-- All operations, in the order of 30 R51. -/
def allOps : List Op :=
  [.nop, .mv, .li, .ld, .ldind, .ldio, .stio, .add] ++
  [.sub, .neg, .xor, .nand, .and, .or, .not, .j] ++
  [.jnz, .jimm, .addi, .st, .jz, .jn, .invalid22, .invalid23] ++
  [.invalid24, .invalid25, .invalid26, .invalid27, .invalid28, .invalid29, .invalid30, .invalid31]

/-- The operation with a given number. Every 5-bit number is some operation's (30 R58); a larger
number, which no opcode field holds, is answered with the last one. -/
def opOfNumber (n : Nat) : Op := (allOps.find? fun o => opNumber o == n).getD .invalid31

/-- The name of an operation in assembly text, in lower case (30 R51, R69); for the invalid opcode
values the disassembler's unknown marker `???` (30 R78, decision D16), which the assembler does not
know (30 R77). -/
def opName (o : Op) : List Char :=
  match o with
  | .nop => ['n', 'o', 'p']
  | .mv => ['m', 'v']
  | .li => ['l', 'i']
  | .ld => ['l', 'd']
  | .ldind => ['l', 'd', 'i', 'n', 'd']
  | .ldio => ['l', 'd', 'i', 'o']
  | .stio => ['s', 't', 'i', 'o']
  | .add => ['a', 'd', 'd']
  | .sub => ['s', 'u', 'b']
  | .neg => ['n', 'e', 'g']
  | .xor => ['x', 'o', 'r']
  | .nand => ['n', 'a', 'n', 'd']
  | .and => ['a', 'n', 'd']
  | .or => ['o', 'r']
  | .not => ['n', 'o', 't']
  | .j => ['j']
  | .jnz => ['j', 'n', 'z']
  | .jimm => ['j', 'i', 'm', 'm']
  | .addi => ['a', 'd', 'd', 'i']
  | .st => ['s', 't']
  | .jz => ['j', 'z']
  | .jn => ['j', 'n']
  | .invalid22 => ['?', '?', '?']
  | .invalid23 => ['?', '?', '?']
  | .invalid24 => ['?', '?', '?']
  | .invalid25 => ['?', '?', '?']
  | .invalid26 => ['?', '?', '?']
  | .invalid27 => ['?', '?', '?']
  | .invalid28 => ['?', '?', '?']
  | .invalid29 => ['?', '?', '?']
  | .invalid30 => ['?', '?', '?']
  | .invalid31 => ['?', '?', '?']

/-- Whether an operation is one of the 22 the assembler knows (30 R51, R77). -/
def opDefined (o : Op) : Bool := opNumber o < 22

/-- What an operand of an assembly line is (30 R70): a register that goes to a named field, or the
one address/immediate operand, which is the next word. -/
inductive Role where
  | dest | srcA | srcB | addr
deriving DecidableEq, Repr

/-- The operands of an operation in the assembler's order (30 R51, R70). -/
def opOperands (o : Op) : List Role :=
  match o with
  | .nop => []
  | .mv => [.dest, .srcA]
  | .li => [.dest, .addr]
  | .ld => [.dest, .addr]
  | .ldind => [.dest, .srcA]
  | .ldio => [.dest, .srcA, .addr]
  | .stio => [.srcA, .srcB, .addr]
  | .add => [.dest, .srcA, .srcB]
  | .sub => [.dest, .srcA, .srcB]
  | .neg => [.dest, .srcA]
  | .xor => [.dest, .srcA, .srcB]
  | .nand => [.dest, .srcA, .srcB]
  | .and => [.dest, .srcA, .srcB]
  | .or => [.dest, .srcA, .srcB]
  | .not => [.dest, .srcA]
  | .j => [.srcA]
  | .jnz => [.srcA, .addr]
  | .jimm => [.addr]
  | .addi => [.dest, .srcA, .addr]
  | .st => [.addr, .srcA]
  | .jz => [.srcA, .addr]
  | .jn => [.srcA, .addr]
  | .invalid22 => []
  | .invalid23 => []
  | .invalid24 => []
  | .invalid25 => []
  | .invalid26 => []
  | .invalid27 => []
  | .invalid28 => []
  | .invalid29 => []
  | .invalid30 => []
  | .invalid31 => []

/-- Whether the operation's format uses a register field (30 R52), or takes a next word (30 R48). -/
def opUses (o : Op) (r : Role) : Bool := r ∈ opOperands o

/-- `k`, the number of next words of an operation, 0 or 1 (30 R47, R48). -/
def opNextWords (o : Op) : Nat := if opUses o .addr then 1 else 0

/-- The length of an operation's instruction in words, told by the opcode alone (30 R48). -/
def opWords (o : Op) : Nat := 1 + opNextWords o

/-- The weight of a register field in the instruction word: 32, 256 or 2048 (30 R49, R71). The next
word is in no field. -/
def roleWeight (r : Role) : Nat :=
  match r with
  | .dest => 2 ^ destLo
  | .srcA => 2 ^ srcALo
  | .srcB => 2 ^ srcBLo
  | .addr => 0

/-- The bits `w[hi:lo]` of 00 R7 as a number, given by its low end and its width. -/
def bits (w : Word) (lo width : Nat) : Nat := w.toNat / 2 ^ lo % 2 ^ width

/-- The operation an instruction word selects (30 R51, R62). -/
def opOf (w : Word) : Op := opOfNumber (bits w opLo opWidth)

/-- The register named by the field of an instruction word that starts at bit `lo` (30 R49). -/
def regField (w : Word) (lo : Nat) : Reg := Fin.ofNat 8 (bits w lo regWidth)

/-- The `d` field (30 R49). -/
def fieldD (w : Word) : Reg := regField w destLo

/-- The `a` field (30 R49). -/
def fieldA (w : Word) : Reg := regField w srcALo

/-- The `b` field (30 R49). -/
def fieldB (w : Word) : Reg := regField w srcBLo

/-- The canonical instruction word of an operation and three field values (30 R59): the fields the
format does not use are 0, and so are bits 15:14. -/
def canonicalWord (o : Op) (d a b : Reg) : Word :=
  BitVec.ofNat 16 (2 ^ opLo * opNumber o
    + (if opUses o .dest then roleWeight .dest * d.val else 0)
    + (if opUses o .srcA then roleWeight .srcA * a.val else 0)
    + (if opUses o .srcB then roleWeight .srcB * b.val else 0))

end Sys2Proof.Machine
end

