-- ==== Sys2Proof/WellFormed.lean ====
section
/-!
DEFINITION. What a well-formed instruction is, as words in memory: the canonical encoding that the
assembler emits (spec/30_encoding.md R59) and the length its opcode demands (R48). A term of `Instr`
needs no further check: its register operands are indices 0 to 7 and its next word is a word by
type, and every such instruction is legal (10 R14, 60 R116). The machine itself does not ask for
well-formed words: every word runs (30 R58).
-/

namespace Sys2Proof

/-- Bits `I[15:14]`, which are in no field, are 0 (30 R50, R59). -/
def spareBitsClear (w : Word) : Bool := Machine.bits w 14 2 == 0

/-- Every register field the operation does not use is 0 (30 R53, R59). -/
def unusedFieldsClear (w : Word) : Bool :=
  (Machine.opUses (Machine.opOf w) .dest || Machine.fieldD w == 0) &&
  (Machine.opUses (Machine.opOf w) .srcA || Machine.fieldA w == 0) &&
  (Machine.opUses (Machine.opOf w) .srcB || Machine.fieldB w == 0)

/-- The instruction word is a canonical one (30 R59). -/
def canonical (w : Word) : Bool := spareBitsClear w && unusedFieldsClear w

/-- The instruction word is followed by exactly as many next words as its opcode takes (30 R48). -/
def rightLength (w : Word) (rest : List Word) : Bool :=
  rest.length == Machine.opNextWords (Machine.opOf w)

/-- A list of words is the well-formed encoding of one instruction. -/
def wellFormed (ws : List Word) : Bool :=
  match ws with
  | [] => false
  | w :: rest => canonical w && rightLength w rest

end Sys2Proof
end

