-- ==== Sys2Proof/Decode.lean ====
section
/-!
DEFINITION. The decoder (spec/30_encoding.md R62, R49 to R58), total on every word, the decoder of a
list of words, and the encoder, written from the same tables of Sys2Proof/Machine/Layout.lean.
-/

namespace Sys2Proof

/-- The instruction that the instruction word `w` and the word after it, `nw`, make (30 R62). Total:
every word selects an operation (30 R58). An operation without a next word ignores `nw`, fields the
operation does not use are ignored (30 R53), and so are bits 15:14 (30 R50). -/
def decode (w nw : Word) : Instr :=
  match Machine.opOf w with
  | .nop => .nop
  | .mv => .mv (Machine.fieldD w) (Machine.fieldA w)
  | .li => .li (Machine.fieldD w) nw
  | .ld => .ld (Machine.fieldD w) nw
  | .ldind => .ldind (Machine.fieldD w) (Machine.fieldA w)
  | .ldio => .ldio (Machine.fieldD w) (Machine.fieldA w) nw
  | .stio => .stio (Machine.fieldA w) (Machine.fieldB w) nw
  | .add => .add (Machine.fieldD w) (Machine.fieldA w) (Machine.fieldB w)
  | .sub => .sub (Machine.fieldD w) (Machine.fieldA w) (Machine.fieldB w)
  | .neg => .neg (Machine.fieldD w) (Machine.fieldA w)
  | .xor => .xor (Machine.fieldD w) (Machine.fieldA w) (Machine.fieldB w)
  | .nand => .nand (Machine.fieldD w) (Machine.fieldA w) (Machine.fieldB w)
  | .and => .and (Machine.fieldD w) (Machine.fieldA w) (Machine.fieldB w)
  | .or => .or (Machine.fieldD w) (Machine.fieldA w) (Machine.fieldB w)
  | .not => .not (Machine.fieldD w) (Machine.fieldA w)
  | .j => .j (Machine.fieldA w)
  | .jnz => .jnz (Machine.fieldA w) nw
  | .jimm => .jimm nw
  | .addi => .addi (Machine.fieldD w) (Machine.fieldA w) nw
  | .st => .st nw (Machine.fieldA w)
  | .jz => .jz (Machine.fieldA w) nw
  | .jn => .jn (Machine.fieldA w) nw
  | .invalid22 => .invalid22
  | .invalid23 => .invalid23
  | .invalid24 => .invalid24
  | .invalid25 => .invalid25
  | .invalid26 => .invalid26
  | .invalid27 => .invalid27
  | .invalid28 => .invalid28
  | .invalid29 => .invalid29
  | .invalid30 => .invalid30
  | .invalid31 => .invalid31

/-- Why a list of words is not the start of an instruction. Neither can happen in memory, where every
address has a word behind it (20 R31, R32). -/
inductive DecodeError where
  /-- there is no instruction word -/
  | noInstructionWord
  /-- the operation takes a next word (30 R48) and the list ends before it -/
  | noNextWord (o : Machine.Op)
deriving DecidableEq, Repr

/-- One instruction from the front of a list of words, and the words after it (30 R47, R48). -/
def decodeWords (ws : List Word) : Except DecodeError (Instr × List Word) :=
  match ws with
  | [] => .error .noInstructionWord
  | w :: rest =>
    if Machine.opNextWords (Machine.opOf w) = 0 then .ok (decode w 0, rest)
    else
      match rest with
      | [] => .error (.noNextWord (Machine.opOf w))
      | nw :: rest' => .ok (decode w nw, rest')

/-- The operation of an instruction. -/
def Instr.op (i : Instr) : Machine.Op :=
  match i with
  | .nop => .nop
  | .mv _ _ => .mv
  | .li _ _ => .li
  | .ld _ _ => .ld
  | .ldind _ _ => .ldind
  | .ldio _ _ _ => .ldio
  | .stio _ _ _ => .stio
  | .add _ _ _ => .add
  | .sub _ _ _ => .sub
  | .neg _ _ => .neg
  | .xor _ _ _ => .xor
  | .nand _ _ _ => .nand
  | .and _ _ _ => .and
  | .or _ _ _ => .or
  | .not _ _ => .not
  | .j _ => .j
  | .jnz _ _ => .jnz
  | .jimm _ => .jimm
  | .addi _ _ _ => .addi
  | .st _ _ => .st
  | .jz _ _ => .jz
  | .jn _ _ => .jn
  | .invalid22 => .invalid22
  | .invalid23 => .invalid23
  | .invalid24 => .invalid24
  | .invalid25 => .invalid25
  | .invalid26 => .invalid26
  | .invalid27 => .invalid27
  | .invalid28 => .invalid28
  | .invalid29 => .invalid29
  | .invalid30 => .invalid30
  | .invalid31 => .invalid31

/-- The canonical instruction word of an instruction (30 R59). -/
def encodeWord (i : Instr) : Word :=
  match i with
  | .nop => Machine.canonicalWord .nop 0 0 0
  | .mv d a => Machine.canonicalWord .mv d a 0
  | .li d _ => Machine.canonicalWord .li d 0 0
  | .ld d _ => Machine.canonicalWord .ld d 0 0
  | .ldind d a => Machine.canonicalWord .ldind d a 0
  | .ldio d a _ => Machine.canonicalWord .ldio d a 0
  | .stio a b _ => Machine.canonicalWord .stio 0 a b
  | .add d a b => Machine.canonicalWord .add d a b
  | .sub d a b => Machine.canonicalWord .sub d a b
  | .neg d a => Machine.canonicalWord .neg d a 0
  | .xor d a b => Machine.canonicalWord .xor d a b
  | .nand d a b => Machine.canonicalWord .nand d a b
  | .and d a b => Machine.canonicalWord .and d a b
  | .or d a b => Machine.canonicalWord .or d a b
  | .not d a => Machine.canonicalWord .not d a 0
  | .j a => Machine.canonicalWord .j 0 a 0
  | .jnz a _ => Machine.canonicalWord .jnz 0 a 0
  | .jimm _ => Machine.canonicalWord .jimm 0 0 0
  | .addi d a _ => Machine.canonicalWord .addi d a 0
  | .st _ a => Machine.canonicalWord .st 0 a 0
  | .jz a _ => Machine.canonicalWord .jz 0 a 0
  | .jn a _ => Machine.canonicalWord .jn 0 a 0
  | .invalid22 => Machine.canonicalWord .invalid22 0 0 0
  | .invalid23 => Machine.canonicalWord .invalid23 0 0 0
  | .invalid24 => Machine.canonicalWord .invalid24 0 0 0
  | .invalid25 => Machine.canonicalWord .invalid25 0 0 0
  | .invalid26 => Machine.canonicalWord .invalid26 0 0 0
  | .invalid27 => Machine.canonicalWord .invalid27 0 0 0
  | .invalid28 => Machine.canonicalWord .invalid28 0 0 0
  | .invalid29 => Machine.canonicalWord .invalid29 0 0 0
  | .invalid30 => Machine.canonicalWord .invalid30 0 0 0
  | .invalid31 => Machine.canonicalWord .invalid31 0 0 0

/-- The next words of an instruction: none, or the one immediate, address, offset or target (30 R54). -/
def encodeNext (i : Instr) : List Word :=
  match i with
  | .nop => []
  | .mv _ _ => []
  | .li _ nw => [nw]
  | .ld _ nw => [nw]
  | .ldind _ _ => []
  | .ldio _ _ nw => [nw]
  | .stio _ _ nw => [nw]
  | .add _ _ _ => []
  | .sub _ _ _ => []
  | .neg _ _ => []
  | .xor _ _ _ => []
  | .nand _ _ _ => []
  | .and _ _ _ => []
  | .or _ _ _ => []
  | .not _ _ => []
  | .j _ => []
  | .jnz _ nw => [nw]
  | .jimm nw => [nw]
  | .addi _ _ nw => [nw]
  | .st nw _ => [nw]
  | .jz _ nw => [nw]
  | .jn _ nw => [nw]
  | .invalid22 => []
  | .invalid23 => []
  | .invalid24 => []
  | .invalid25 => []
  | .invalid26 => []
  | .invalid27 => []
  | .invalid28 => []
  | .invalid29 => []
  | .invalid30 => []
  | .invalid31 => []

/-- The words of an instruction, the instruction word first, whatever the order of the operands in
assembly (30 R56). -/
def encode (i : Instr) : List Word := encodeWord i :: encodeNext i

/-- What the decoder reads from an instruction whose bits are `w`, bit 0 the least significant bit of
the first word and the second word in bits 31 to 16; the bits from `nbits` up are 0. The words go to
`decodeWords` as the machine stores them, each a cell of its own (20 R30). -/
def decodeTableWord (nbits w : Nat) : Option Instr :=
  match decodeWords [BitVec.ofNat 16 (w % 2 ^ nbits), BitVec.ofNat 16 (w % 2 ^ nbits / 2 ^ 16)] with
  | .ok (i, _) => some i
  | .error _ => none

end Sys2Proof
end

