-- ==== Sys2Proof/Machine/State.lean ====
section
/-!
DEFINITION. The machine's state, the reasons a step could stop, and the state after reset
(spec/10_state.md). The state is exactly the triple {PC, register file, memory} (10 R18, R19).
-/

namespace Sys2Proof.Machine

/-- The memory: (word address, word) pairs, addresses strictly rising, no pair whose word is what an
unlisted address reads as. The smallest thing the machine's memory holds is a 16-bit word and no
access is narrower or wider (20 R28 to R30), so a cell is a word. DESIGN CHOICE, safe (log entry 1). -/
abbrev Memory := List (Nat × Word)

/-- The canonical form, from address `lo` up. -/
def Memory.wfFrom (lo : Nat) (m : Memory) : Bool :=
  match m with
  | [] => true
  | (k, v) :: rest =>
    decide (lo ≤ k) && decide (k < Config.memWords) && (v != Config.unwrittenWord) &&
      Memory.wfFrom (k + 1) rest

/-- The memory is in canonical form: every address exists (10 R20), addresses strictly rise, and no
pair says what an unlisted address reads as. -/
def Memory.wf (m : Memory) : Bool := Memory.wfFrom 0 m

/-- The machine state (10 R18). -/
structure State where
  /-- the program counter, the address of the next instruction word to fetch (10 R16) -/
  pc : Word
  /-- the register file `x[0]` to `x[7]` (10 R13) -/
  regs : Vector Word 8
  /-- the 65536 words of memory (10 R20, R21) -/
  mem : Memory
deriving DecidableEq, Repr

/-- Why a step stops with a fault. The type has no constructor: "the Stepper cannot fail" (60 R107),
no instruction word is illegal (60 R108), no access faults (60 R109) and no arithmetic faults
(60 R110). Nobody raises one, which is exact, neither safe nor unsafe. -/
inductive Fault where
deriving DecidableEq, Repr

/-- Why a step is refused. -/
inductive Refusal where
  /-- The instruction has no meaning yet. Only an arm of `exec` could raise it, and none does: all 32
  have their meaning. It would be safe. -/
  | notModelled (mnemonic : String)
deriving DecidableEq, Repr

/-- A state the reset operation `init` may produce: PC 0 and any registers and memory at all
(70 R123, 10 R23 to R26). -/
def State.init (regs : Vector Word 8) (mem : Memory) : State :=
  { pc := Config.resetPc, regs := regs, mem := mem }

/-- The machine right after reset. The PC is the spec's (10 R23). The registers and the memory are one
of the contents the spec permits (10 R26): DESIGN CHOICE, unsafe (log entries 2 and 3). -/
def State.reset : State := State.init (Vector.replicate 8 Config.resetReg) []

end Sys2Proof.Machine
end

