-- ==== Sys2Proof/Machine/Ops.lean ====
section
/-!
DEFINITION. The named operations over the registers, the PC and memory (spec/00_scope.md R9), and the
three ways an instruction can end. The machine takes no exception and returns from none (60 R107,
R113, R114), so there is no such operation.
-/

namespace Sys2Proof.Machine

/-- The word a memory holds at an address. -/
def Memory.lookup (m : Memory) (a : Nat) : Word :=
  match m with
  | [] => Config.unwrittenWord
  | (k, v) :: rest => if k = a then v else Memory.lookup rest a

/-- `v` put at address `a`, in its place in the rising order. -/
def Memory.insert (m : Memory) (a : Nat) (v : Word) : Memory :=
  match m with
  | [] => [(a, v)]
  | (k, w) :: rest =>
    if a < k then (a, v) :: (k, w) :: rest
    else if k = a then (a, v) :: rest
    else (k, w) :: Memory.insert rest a v

/-- Address `a` no longer listed. -/
def Memory.erase (m : Memory) (a : Nat) : Memory := m.filter fun c => c.1 != a

/-- The one-word read `MemRead(addr, 1)` of 00 R9: every address has a word behind it (20 R31). -/
def Memory.read (m : Memory) (a : Word) : Word := m.lookup a.toNat

/-- The one-word write `MemWrite(addr, 1, v)` of 00 R9: the addressed word and nothing else (20 R34).
The canonical form is kept by not listing what an unlisted address reads as. -/
def Memory.write (m : Memory) (a v : Word) : Memory :=
  if v = Config.unwrittenWord then m.erase a.toNat else m.insert a.toNat v

/-- `x[i]` read (00 R9). No register is special (10 R14). -/
def State.readReg (s : State) (r : Reg) : Word := s.regs.get r

/-- `x[i] <- v` (00 R9). -/
def State.writeReg (s : State) (r : Reg) (v : Word) : State :=
  { s with regs := s.regs.set r.val v r.isLt }

/-- `MemRead(addr, 1)` in a state (00 R9, 20 R29). -/
def State.readMem (s : State) (a : Word) : Word := s.mem.read a

/-- `MemWrite(addr, 1, v)` in a state (00 R9, 20 R29). -/
def State.writeMem (s : State) (a v : Word) : State := { s with mem := s.mem.write a v }

/-- `pc <- v` (00 R9). -/
def State.setPc (s : State) (v : Word) : State := { s with pc := v }

/-- The PC moved past an instruction of `n` words, wrapped (10 R17). -/
def State.advance (s : State) (n : Nat) : State := s.setPc (wrap16 (s.pc.toNat + n))

/-- An instruction of `n` words that has no effect but on the PC. -/
def finish (s : State) (n : Nat) : Host.Outcome State Fault Refusal := .next (s.advance n)

/-- An instruction of `n` words that writes `v` to the register `d`. -/
def finishReg (s : State) (d : Reg) (v : Word) (n : Nat) : Host.Outcome State Fault Refusal :=
  .next ((s.writeReg d v).advance n)

/-- An instruction of `n` words that writes `v` to the memory word at `a`. -/
def finishMem (s : State) (a v : Word) (n : Nat) : Host.Outcome State Fault Refusal :=
  .next ((s.writeMem a v).advance n)

/-- An instruction of the jump family: the PC is set and does not advance beyond that (43 R101). -/
def finishJump (s : State) (target : Word) : Host.Outcome State Fault Refusal :=
  .next (s.setPc target)

/-- A conditional jump of two words: to `target` if `taken`, else past the instruction (43 R101). -/
def finishBranch (s : State) (taken : Bool) (target : Word) : Host.Outcome State Fault Refusal :=
  if taken then finishJump s target else finish s 2

/-- The instruction word of the cycle: the word at the PC (30 R61, 20 R32). -/
def State.fetchWord (s : State) : Word := s.readMem s.pc

/-- The next word: the word at `wrap16(pc + 1)`, so at 0 when the PC is 65535 (20 R32). Reading it for
an operation that takes none changes nothing (20 R33, R34). -/
def State.fetchNext (s : State) : Word := s.readMem (wrap16 (s.pc.toNat + 1))

/-- `s` with the words `ws` stored at address `a` and the addresses after it, wrapped. -/
def State.storeWords (s : State) (a : Word) (ws : List Word) : State :=
  match ws with
  | [] => s
  | w :: rest => (s.writeMem a w).storeWords (wrap16 (a.toNat + 1)) rest

end Sys2Proof.Machine
end

