-- ==== Sys2Proof/Machine/Operands.lean ====
section
/-!
DEFINITION. The machine's three addressing modes (spec/41_load_store.md R141) and the results of the
arithmetic and logic operations (spec/42_alu.md R89 to R98), as functions of words. Sums and
differences are taken on unbounded integers and wrapped explicitly (00 R8).
-/

namespace Sys2Proof.Machine

/-- The address of a register-plus-offset access: `wrap16(x[a] + nw)` (41 R86, R87, R141). -/
def State.effAddr (s : State) (a : Reg) (offset : Word) : Word :=
  wrap16 ((s.readReg a).toNat + offset.toNat)

/-- What LD loads: the next word is the address of a word that holds the address of the data
(41 R84). UNVERIFIED, the spec's decision D7 reads the source's two levels literally (log entry 8). -/
def State.readThrough (s : State) (nw : Word) : Word := s.readMem (s.readMem nw)

/-- The sum of two words modulo 65536 (42 R90, R98). -/
def aluAdd (x y : Word) : Word := wrap16 (x.toNat + y.toNat)

/-- The difference of two words modulo 65536 (42 R91). -/
def aluSub (x y : Word) : Word := wrap16 ((x.toNat : Int) - y.toNat)

/-- The two's-complement negation (42 R92). -/
def aluNeg (x : Word) : Word := wrap16 (0 - (x.toNat : Int))

/-- The bitwise exclusive or (42 R93). -/
def aluXor (x y : Word) : Word := x ^^^ y

/-- The complement of the bitwise and (42 R94). -/
def aluNand (x y : Word) : Word := not16 (x &&& y)

/-- The bitwise and (42 R95). -/
def aluAnd (x y : Word) : Word := x &&& y

/-- The bitwise or (42 R96). -/
def aluOr (x y : Word) : Word := x ||| y

/-- The bitwise complement (42 R97). -/
def aluNot (x : Word) : Word := not16 x

end Sys2Proof.Machine
end

