-- ==== Sys2Proof/Machine/Alu.lean ====
section
/-!
DEFINITION. The meanings of ADD, SUB, NEG, XOR, NAND, AND, OR, NOT and ADDI (spec/42_alu.md R90 to R98). Every
read of a meaning is of the state before the instruction (70 R127).
-/

namespace Sys2Proof.Machine

/-- ADD: `x[d] <- wrap16(x[a] + x[b])` (42 R90). -/
def execAdd (d a b : Reg) (s : State) : Host.Outcome State Fault Refusal :=
  finishReg s d (aluAdd (s.readReg a) (s.readReg b)) 1

/-- SUB: `x[d] <- wrap16(x[a] - x[b])` (42 R91). -/
def execSub (d a b : Reg) (s : State) : Host.Outcome State Fault Refusal :=
  finishReg s d (aluSub (s.readReg a) (s.readReg b)) 1

/-- NEG: `x[d] <- wrap16(0 - x[a])` (42 R92). -/
def execNeg (d a : Reg) (s : State) : Host.Outcome State Fault Refusal :=
  finishReg s d (aluNeg (s.readReg a)) 1

/-- XOR: `x[d] <- x[a] XOR x[b]` (42 R93). -/
def execXor (d a b : Reg) (s : State) : Host.Outcome State Fault Refusal :=
  finishReg s d (aluXor (s.readReg a) (s.readReg b)) 1

/-- NAND: `x[d] <- NOT16(x[a] AND x[b])` (42 R94). -/
def execNand (d a b : Reg) (s : State) : Host.Outcome State Fault Refusal :=
  finishReg s d (aluNand (s.readReg a) (s.readReg b)) 1

/-- AND: `x[d] <- x[a] AND x[b]` (42 R95). -/
def execAnd (d a b : Reg) (s : State) : Host.Outcome State Fault Refusal :=
  finishReg s d (aluAnd (s.readReg a) (s.readReg b)) 1

/-- OR: `x[d] <- x[a] OR x[b]` (42 R96). -/
def execOr (d a b : Reg) (s : State) : Host.Outcome State Fault Refusal :=
  finishReg s d (aluOr (s.readReg a) (s.readReg b)) 1

/-- NOT: `x[d] <- NOT16(x[a])` (42 R97). -/
def execNot (d a : Reg) (s : State) : Host.Outcome State Fault Refusal :=
  finishReg s d (aluNot (s.readReg a)) 1

/-- ADDI: `x[d] <- wrap16(x[a] + nw)` (42 R98). -/
def execAddi (d a : Reg) (nw : Word) (s : State) : Host.Outcome State Fault Refusal :=
  finishReg s d (aluAdd (s.readReg a) nw) 2

end Sys2Proof.Machine
end

