-- ==== Sys2Proof/Machine/Flags.lean ====
section
/-!
DEFINITION. The machine has no flags (spec/10_state.md R19): a conditional jump tests the current
value of one register. These are the three conditions (spec/43_jump.md R101).
-/

namespace Sys2Proof.Machine

/-- The condition of JNZ: not zero (43 R103). -/
def condNotZero (w : Word) : Bool := w.toNat != 0

/-- The condition of JZ: zero (43 R105). -/
def condZero (w : Word) : Bool := w.toNat == 0

/-- The condition of JN: 32768 or above, that is bit 15 set (43 R106). -/
def condNegative (w : Word) : Bool := decide (32768 ≤ w.toNat)

end Sys2Proof.Machine
end

