-- ==== Sys2Proof/Machine/Jump.lean ====
section
/-!
DEFINITION. The meanings of J, JNZ, JIMM, JZ and JN, the jump family (spec/43_jump.md R101 to R106). Every
read of a meaning is of the state before the instruction (70 R127).
-/

namespace Sys2Proof.Machine

/-- J: `pc <- x[a]` (43 R102). -/
def execJ (a : Reg) (s : State) : Host.Outcome State Fault Refusal :=
  finishJump s (s.readReg a)

/-- JNZ: `pc <- nw` if `x[a]` is not 0, else past the instruction (43 R103). -/
def execJnz (a : Reg) (nw : Word) (s : State) : Host.Outcome State Fault Refusal :=
  finishBranch s (condNotZero (s.readReg a)) nw

/-- JIMM: `pc <- nw` (43 R104). -/
def execJimm (nw : Word) (s : State) : Host.Outcome State Fault Refusal :=
  finishJump s nw

/-- JZ: `pc <- nw` if `x[a]` is 0, else past the instruction (43 R105). -/
def execJz (a : Reg) (nw : Word) (s : State) : Host.Outcome State Fault Refusal :=
  finishBranch s (condZero (s.readReg a)) nw

/-- JN: `pc <- nw` if `x[a]` is 32768 or above, else past the instruction (43 R106). -/
def execJn (a : Reg) (nw : Word) (s : State) : Host.Outcome State Fault Refusal :=
  finishBranch s (condNegative (s.readReg a)) nw

end Sys2Proof.Machine
end

