-- ==== Sys2Proof/Machine/LoadStore.lean ====
section
/-!
DEFINITION. The meanings of LD, LDIND, LDIO, STIO and ST (spec/41_load_store.md R84 to R88). Every
read of a meaning is of the state before the instruction (70 R127).
-/

namespace Sys2Proof.Machine

/-- LD: `x[d] <- M[M[nw]]` (41 R84). -/
def execLd (d : Reg) (nw : Word) (s : State) : Host.Outcome State Fault Refusal :=
  finishReg s d (s.readThrough nw) 2

/-- LDIND: `x[d] <- M[x[a]]` (41 R85). -/
def execLdind (d a : Reg) (s : State) : Host.Outcome State Fault Refusal :=
  finishReg s d (s.readMem (s.readReg a)) 1

/-- LDIO: `x[d] <- M[wrap16(x[a] + nw)]` (41 R86). -/
def execLdio (d a : Reg) (nw : Word) (s : State) : Host.Outcome State Fault Refusal :=
  finishReg s d (s.readMem (s.effAddr a nw)) 2

/-- STIO: `M[wrap16(x[a] + nw)] <- x[b]` (41 R87). -/
def execStio (a b : Reg) (nw : Word) (s : State) : Host.Outcome State Fault Refusal :=
  finishMem s (s.effAddr a nw) (s.readReg b) 2

/-- ST: `M[nw] <- x[a]` (41 R88). -/
def execSt (nw : Word) (a : Reg) (s : State) : Host.Outcome State Fault Refusal :=
  finishMem s nw (s.readReg a) 2

end Sys2Proof.Machine
end

