-- ==== Sys2Proof/Machine/MoveNop.lean ====
section
/-!
DEFINITION. The meanings of NOP, MV, LI and the ten invalid opcode values (spec/40_move_nop.md R80 to R83). Every
read of a meaning is of the state before the instruction (70 R127).
-/

namespace Sys2Proof.Machine

/-- NOP: no effect but the PC (40 R80). -/
def execNop (s : State) : Host.Outcome State Fault Refusal :=
  finish s 1

/-- MV: `x[d] <- x[a]` (40 R81). -/
def execMv (d a : Reg) (s : State) : Host.Outcome State Fault Refusal :=
  finishReg s d (s.readReg a) 1

/-- LI: `x[d] <- nw` (40 R82). -/
def execLi (d : Reg) (nw : Word) (s : State) : Host.Outcome State Fault Refusal :=
  finishReg s d nw 2

/-- Opcode value 22: identical to NOP, one word long, no next word consumed (40 R83). -/
def execInvalid22 (s : State) : Host.Outcome State Fault Refusal :=
  finish s 1

/-- Opcode value 23: identical to NOP, one word long, no next word consumed (40 R83). -/
def execInvalid23 (s : State) : Host.Outcome State Fault Refusal :=
  finish s 1

/-- Opcode value 24: identical to NOP, one word long, no next word consumed (40 R83). -/
def execInvalid24 (s : State) : Host.Outcome State Fault Refusal :=
  finish s 1

/-- Opcode value 25: identical to NOP, one word long, no next word consumed (40 R83). -/
def execInvalid25 (s : State) : Host.Outcome State Fault Refusal :=
  finish s 1

/-- Opcode value 26: identical to NOP, one word long, no next word consumed (40 R83). -/
def execInvalid26 (s : State) : Host.Outcome State Fault Refusal :=
  finish s 1

/-- Opcode value 27: identical to NOP, one word long, no next word consumed (40 R83). -/
def execInvalid27 (s : State) : Host.Outcome State Fault Refusal :=
  finish s 1

/-- Opcode value 28: identical to NOP, one word long, no next word consumed (40 R83). -/
def execInvalid28 (s : State) : Host.Outcome State Fault Refusal :=
  finish s 1

/-- Opcode value 29: identical to NOP, one word long, no next word consumed (40 R83). -/
def execInvalid29 (s : State) : Host.Outcome State Fault Refusal :=
  finish s 1

/-- Opcode value 30: identical to NOP, one word long, no next word consumed (40 R83). -/
def execInvalid30 (s : State) : Host.Outcome State Fault Refusal :=
  finish s 1

/-- Opcode value 31: identical to NOP, one word long, no next word consumed (40 R83). -/
def execInvalid31 (s : State) : Host.Outcome State Fault Refusal :=
  finish s 1

end Sys2Proof.Machine
end

