-- ==== Sys2Proof/Machine/Dispatch.lean ====
section
/-!
DEFINITION. The dispatch of the cycle's execute phase (spec/30_encoding.md R63): one arm for each
constructor of `Instr`, each a call of that instruction's meaning.
-/

namespace Sys2Proof.Machine

def exec (i : Instr) (s : State) : Host.Outcome State Fault Refusal :=
  match i with
  | .nop => Sys2Proof.Machine.execNop s
  | .mv d a => Sys2Proof.Machine.execMv d a s
  | .li d nw => Sys2Proof.Machine.execLi d nw s
  | .ld d nw => Sys2Proof.Machine.execLd d nw s
  | .ldind d a => Sys2Proof.Machine.execLdind d a s
  | .ldio d a nw => Sys2Proof.Machine.execLdio d a nw s
  | .stio a b nw => Sys2Proof.Machine.execStio a b nw s
  | .add d a b => Sys2Proof.Machine.execAdd d a b s
  | .sub d a b => Sys2Proof.Machine.execSub d a b s
  | .neg d a => Sys2Proof.Machine.execNeg d a s
  | .xor d a b => Sys2Proof.Machine.execXor d a b s
  | .nand d a b => Sys2Proof.Machine.execNand d a b s
  | .and d a b => Sys2Proof.Machine.execAnd d a b s
  | .or d a b => Sys2Proof.Machine.execOr d a b s
  | .not d a => Sys2Proof.Machine.execNot d a s
  | .j a => Sys2Proof.Machine.execJ a s
  | .jnz a nw => Sys2Proof.Machine.execJnz a nw s
  | .jimm nw => Sys2Proof.Machine.execJimm nw s
  | .addi d a nw => Sys2Proof.Machine.execAddi d a nw s
  | .st nw a => Sys2Proof.Machine.execSt nw a s
  | .jz a nw => Sys2Proof.Machine.execJz a nw s
  | .jn a nw => Sys2Proof.Machine.execJn a nw s
  | .invalid22 => Sys2Proof.Machine.execInvalid22 s
  | .invalid23 => Sys2Proof.Machine.execInvalid23 s
  | .invalid24 => Sys2Proof.Machine.execInvalid24 s
  | .invalid25 => Sys2Proof.Machine.execInvalid25 s
  | .invalid26 => Sys2Proof.Machine.execInvalid26 s
  | .invalid27 => Sys2Proof.Machine.execInvalid27 s
  | .invalid28 => Sys2Proof.Machine.execInvalid28 s
  | .invalid29 => Sys2Proof.Machine.execInvalid29 s
  | .invalid30 => Sys2Proof.Machine.execInvalid30 s
  | .invalid31 => Sys2Proof.Machine.execInvalid31 s

end Sys2Proof.Machine
end

