-- ==== Sys2Proof/Machine/Step.lean ====
section
/-!
DEFINITION. One cycle of the stepper: fetch, decode, execute (spec/30_encoding.md R61 to R64,
spec/70_reset_and_hazards.md R124, R128).
-/

namespace Sys2Proof.Machine

/-- One whole cycle: the instruction at the PC is fetched with the word after it, decoded and executed. -/
def step (s : State) : Host.Outcome State Fault Refusal :=
  exec (decode s.fetchWord s.fetchNext) s

/-- `s` with the instruction of `decodeTableWord nbits w` stored where `step` fetches next: the
instruction word at the PC and, for an operation that takes one, the next word after it. Nothing else
changes. This stands for the host's install of a program (log entry 9). -/
def State.withFetchWord (s : State) (nbits w : Nat) : State :=
  let I : Word := BitVec.ofNat 16 (w % 2 ^ nbits)
  let nw : Word := BitVec.ofNat 16 (w % 2 ^ nbits / 2 ^ 16)
  s.storeWords s.pc ([I, nw].take (opWords (opOf I)))

end Sys2Proof.Machine
end

