-- ==== Sys2Proof/Machine/Assembler.lean ====
section
/-!
DEFINITION. The assembler's language (spec/30_encoding.md R65 to R77): which texts are programs, the
words each stands for, and the error class and line of one that is not. It is software around the
machine (00 R4) and no step uses it; it is here because these rules fix how programs are written and
which operand goes to which field. Texts to which the spec gives no image (93 U18, U19) are answered
as unspecified, never with an image.
-/

namespace Sys2Proof.Machine

/-- The error classes of the assembler (30 R76, 60 R122). They are never errors of the machine. -/
inductive AsmError where
  /-- a label defined twice (30 R66) -/
  | labelRedefinition
  /-- the first token is no mnemonic (30 R69) -/
  | unrecognizedInstruction
  /-- a directive's argument is missing, not a number, or out of range (30 R67, R68) -/
  | directiveArgumentError
  /-- `.org` below the cursor (30 R67) -/
  | nonMonotonicOrg
  /-- the wrong number of operands (30 R69) -/
  | argumentCountMismatch
  /-- a register operand that is no register (30 R71) -/
  | badOperandSyntax
  /-- a label that is never defined (30 R73) -/
  | unresolvedLabel
  /-- an operand number outside -32768 to 65535: an error whose class the source does not name
  (30 R72, R74; 95 A12). DESIGN CHOICE (log entry 10). -/
  | operandOutOfRange
deriving DecidableEq, Repr

/-- Why the spec gives a text neither an image nor an error. -/
inductive AsmUnspecified where
  /-- the cursor passes 65535, or `.org` above it (93 U18) -/
  | pastLastAddress
  /-- a spelling outside the form of decision D15 (93 U19) -/
  | otherSpelling
deriving DecidableEq, Repr

/-- Why assembly stops without an image, with the 1-based line (30 R76). -/
inductive AsmStop where
  | diagnostic (line : Nat) (error : AsmError)
  | unspecified (line : Nat) (why : AsmUnspecified)
deriving DecidableEq, Repr

/-- A memory image: the words the assembler emitted, by address, in the order of emission (30 R76). -/
abbrev Image := List (Nat × Word)

/-- "the number of words emitted" (30 R76, 90 C4). -/
def wordsEmitted (image : Image) : Nat := image.length

/-- What an emitted word is while labels are not resolved yet: a word, or a reference to a label from a
line (30 R72). -/
inductive Emitted where
  | word (w : Word)
  | label (name : List Char) (line : Nat)
deriving DecidableEq, Repr

/-- The assembler between two lines: the cursor, the words emitted so far and the labels defined so far. -/
structure AsmState where
  cursor : Nat
  items : List (Nat × Emitted)
  labels : List (List Char × Nat)
deriving DecidableEq, Repr

/-- Before the first line: the cursor at 0 (30 R65). -/
def AsmState.start : AsmState := { cursor := 0, items := [], labels := [] }

/-- White space inside a line. The spec does not list the characters: DESIGN CHOICE (log entry 10). -/
def isBlank (c : Char) : Bool := c == ' ' || c == '\t' || c == '\r'

/-- A text cut at every character that `sep` marks; pieces may be empty. -/
def splitAtChars (sep : Char → Bool) (cs : List Char) : List (List Char) :=
  match cs with
  | [] => [[]]
  | c :: rest =>
    if sep c then [] :: splitAtChars sep rest
    else
      match splitAtChars sep rest with
      | [] => [[c]]
      | t :: ts => (c :: t) :: ts

/-- The tokens of a line, separated by white space (30 R75). -/
def tokensOf (line : List Char) : List (List Char) :=
  (splitAtChars isBlank line).filter fun t => !t.isEmpty

/-- A line without its comment and trimmed (30 R65). -/
def cleanLine (line : List Char) : List Char :=
  (((line.takeWhile fun c => c != ';').dropWhile isBlank).reverse.dropWhile isBlank).reverse

/-- The digits `0` to `9`. -/
def isDigitChar (c : Char) : Bool := decide (48 ≤ c.toNat) && decide (c.toNat ≤ 57)

/-- The letters `A` to `Z` and `a` to `z`. -/
def isLetterChar (c : Char) : Bool :=
  (decide (65 ≤ c.toNat) && decide (c.toNat ≤ 90)) || (decide (97 ≤ c.toNat) && decide (c.toNat ≤ 122))

/-- A letter in lower case; any other character as it is. -/
def lowerChar (c : Char) : Char :=
  if 65 ≤ c.toNat ∧ c.toNat ≤ 90 then Char.ofNat (c.toNat + 32) else c

/-- The value of a run of decimal digits, after `acc`. -/
def parseDigits (acc : Nat) (cs : List Char) : Option Nat :=
  match cs with
  | [] => some acc
  | c :: rest => if isDigitChar c then parseDigits (10 * acc + (c.toNat - 48)) rest else none

/-- A decimal number, which may be negative (30 R74). -/
def parseNumber (cs : List Char) : Option Int :=
  match cs with
  | [] => none
  | [c] => if isDigitChar c then some (c.toNat - 48) else none
  | c :: rest =>
    if c == '-' then (parseDigits 0 rest).map fun n => -(n : Int)
    else (parseDigits 0 (c :: rest)).map fun n => (n : Int)

/-- The names of labels of decision D15: letters, digits and `_`, a letter first. -/
def isLabelName (cs : List Char) : Bool :=
  match cs with
  | [] => false
  | c :: rest => isLetterChar c && rest.all fun x => isLetterChar x || isDigitChar x || x == '_'

/-- The word a number stands for, if it has a 16-bit encoding: a negative one as `65536 + value`
(30 R74, decision D14). -/
def literalWord (v : Int) : Option Word :=
  if -32768 ≤ v ∧ v ≤ 65535 then some (wrap16 v) else none

/-- The operation a mnemonic names, in any letter case (30 R69): one of the 22. -/
def findMnemonic (t : List Char) : Option Op :=
  (allOps.filter opDefined).find? fun o => opName o == t.map lowerChar

/-- The register a token names: `r0` to `r7` (30 R71). -/
def registerToken (t : List Char) : Option Reg :=
  match t with
  | [r, c] => if r == 'r' && isDigitChar c && decide (c.toNat - 48 < 8) then some (Fin.ofNat 8 (c.toNat - 48)) else none
  | _ => none

/-- A token that is a register but for the letter case, which the spec leaves unspecified (93 U19). -/
def upperRegisterToken (t : List Char) : Bool :=
  match t with
  | [r, c] => r == 'R' && isDigitChar c && decide (c.toNat - 48 < 8)
  | _ => false

/-- The operand tokens without the commas that separate them, if the line has D15's form: one comma at
the end of every operand but the last and no other comma (30 R75). -/
def separateOperands (ts : List (List Char)) : Option (List (List Char)) :=
  match ts with
  | [] => some []
  | [t] => if ',' ∈ t then none else some [t]
  | t :: rest =>
    if t.getLast? = some ',' ∧ ',' ∉ t.dropLast ∧ t.dropLast ≠ [] then
      (separateOperands rest).map fun r => t.dropLast :: r
    else none

/-- One operand: what it adds to the instruction word, and the word it emits, if it is the
address/immediate operand (30 R71, R72). -/
def asmOperand (line : Nat) (r : Role) (t : List Char) : Except AsmStop (Nat × List Emitted) :=
  match r with
  | .addr =>
    match parseNumber t with
    | some v =>
      match literalWord v with
      | some w => .ok (0, [.word w])
      | none => .error (.diagnostic line .operandOutOfRange)
    | none =>
      if isLabelName t then .ok (0, [.label t line])
      else .error (.unspecified line .otherSpelling)
  | _ =>
    match registerToken t with
    | some x => .ok (roleWeight r * x.val, [])
    | none =>
      if upperRegisterToken t then .error (.unspecified line .otherSpelling)
      else .error (.diagnostic line .badOperandSyntax)

/-- The operands left to right (30 R69), their sum and their words. The lists have the same length. -/
def asmOperands (line : Nat) (rs : List Role) (ts : List (List Char)) :
    Except AsmStop (Nat × List Emitted) :=
  match rs, ts with
  | r :: rs', t :: ts' =>
    match asmOperand line r t with
    | .error e => .error e
    | .ok (n, es) =>
      match asmOperands line rs' ts' with
      | .error e => .error e
      | .ok (n', es') => .ok (n + n', es ++ es')
  | _, _ => .ok (0, [])

/-- Words emitted at the cursor, which moves past them; the cursor may not pass 65535 (93 U18). -/
def emit (line : Nat) (st : AsmState) (es : List Emitted) : Except AsmStop AsmState :=
  match es with
  | [] => .ok st
  | e :: rest =>
    if st.cursor + 1 < Config.memWords then
      emit line { st with cursor := st.cursor + 1, items := st.items ++ [(st.cursor, e)] } rest
    else .error (.unspecified line .pastLastAddress)

/-- An instruction line: the instruction word, then the word of its `addr` operand if it has one,
whatever that operand's place in the line (30 R56, R69). -/
def asmInstruction (line : Nat) (st : AsmState) (mnemonic : List Char) (args : List (List Char)) :
    Except AsmStop AsmState :=
  match findMnemonic mnemonic with
  | none => .error (.diagnostic line .unrecognizedInstruction)
  | some o =>
    match separateOperands args with
    | none => .error (.unspecified line .otherSpelling)
    | some ts =>
      if ts.length = (opOperands o).length then
        match asmOperands line (opOperands o) ts with
        | .error e => .error e
        | .ok (n, es) =>
          emit line st (.word (BitVec.ofNat 16 (2 ^ opLo * opNumber o + n)) :: es)
      else .error (.diagnostic line .argumentCountMismatch)

/-- A number, perhaps in another notation than the decimal one of 30 R74: signs or none, `$`, `%`
or neither, then digits of a base up to 16 with the letters that mark a base, `_` or a point. U19
leaves numbers that are not decimal open and names no notation: DESIGN CHOICE (log entry 10). -/
def isNumeral (cs : List Char) : Bool :=
  match cs.dropWhile fun c => c == '+' || c == '-' with
  | [] => false
  | c :: rest =>
    (isDigitChar c || (c == '$' || c == '%') && !rest.isEmpty) &&
      rest.all fun x =>
        isDigitChar x ||
          lowerChar x ∈ ['a', 'b', 'c', 'd', 'e', 'f', 'h', 'o', 'q', 'x', '_', '.']

/-- A directive argument that is no decimal number but whose reading the spec leaves open (93 U19): a
number in another notation, or a comma at its start or after a number. -/
def openDirectiveArgument (t : List Char) : Bool :=
  t.head? == some ',' || isNumeral (t.takeWhile fun c => c != ',')

/-- The number a directive is given. "missing or not a number" is an error, a label among the rest
(30 R67, R68); what U19 leaves open, and a second argument after a number, has no answer (log
entry 10). -/
def directiveNumber (line : Nat) (args : List (List Char)) : Except AsmStop Int :=
  match args with
  | [] => .error (.diagnostic line .directiveArgumentError)
  | t :: more =>
    match parseNumber t with
    | some v => if more.isEmpty then .ok v else .error (.unspecified line .otherSpelling)
    | none =>
      if openDirectiveArgument t then .error (.unspecified line .otherSpelling)
      else .error (.diagnostic line .directiveArgumentError)

/-- `.org`: the cursor moved forward, nothing emitted (30 R67). -/
def asmOrg (line : Nat) (st : AsmState) (args : List (List Char)) : Except AsmStop AsmState :=
  match directiveNumber line args with
  | .error e => .error e
  | .ok v =>
    if v < st.cursor then .error (.diagnostic line .nonMonotonicOrg)
    else if v < Config.memWords then .ok { st with cursor := v.toNat }
    else .error (.unspecified line .pastLastAddress)

/-- `.val`: one literal word (30 R68). -/
def asmVal (line : Nat) (st : AsmState) (args : List (List Char)) : Except AsmStop AsmState :=
  match directiveNumber line args with
  | .error e => .error e
  | .ok v =>
    match literalWord v with
    | some w => emit line st [.word w]
    | none => .error (.diagnostic line .directiveArgumentError)

/-- A label at the cursor, under a name not yet taken (30 R66). -/
def asmLabel (line : Nat) (st : AsmState) (name : List Char) : Except AsmStop AsmState :=
  if isLabelName name then
    if (st.labels.lookup name).isSome then .error (.diagnostic line .labelRedefinition)
    else .ok { st with labels := st.labels ++ [(name, st.cursor)] }
  else .error (.unspecified line .otherSpelling)

/-- One cleaned line that is not empty: a label, a directive or an instruction (30 R66 to R69, R77). -/
def asmLine (line : Nat) (st : AsmState) (text : List Char) : Except AsmStop AsmState :=
  if text.getLast? = some ':' then asmLabel line st text.dropLast
  else
    match tokensOf text with
    | [] => .ok st
    | t :: args =>
      if t = ['.', 'o', 'r', 'g'] then asmOrg line st args
      else if t = ['.', 'v', 'a', 'l'] then asmVal line st args
      else asmInstruction line st t args

/-- The lines in order, numbered from `line`; an empty one ends the program text (30 R65). -/
def asmLines (line : Nat) (st : AsmState) (ls : List (List Char)) : Except AsmStop AsmState :=
  match ls with
  | [] => .ok st
  | l :: rest =>
    if cleanLine l = [] then .ok st
    else
      match asmLine line st (cleanLine l) with
      | .error e => .error e
      | .ok st' => asmLines (line + 1) st' rest

/-- The image, with every label reference replaced by the label's address (30 R73). -/
def resolve (labels : List (List Char × Nat)) (items : List (Nat × Emitted)) : Except AsmStop Image :=
  match items with
  | [] => .ok []
  | (a, e) :: rest =>
    match e with
    | .word w => (resolve labels rest).map fun im => (a, w) :: im
    | .label name line =>
      match labels.lookup name with
      | none => .error (.diagnostic line .unresolvedLabel)
      | some t => (resolve labels rest).map fun im => (a, BitVec.ofNat 16 t) :: im

/-- The assembler over a list of characters. -/
def assembleChars (source : List Char) : Except AsmStop Image :=
  match asmLines 1 AsmState.start (splitAtChars (fun c => c == '\n') source) with
  | .error e => .error e
  | .ok st => resolve st.labels st.items

/-- `assemble(sourceText)` of 30 section 7 and R76. -/
def assemble (source : String) : Except AsmStop Image := assembleChars source.toList

end Sys2Proof.Machine
end

