-- ==== Sys2Proof/Machine/Disassembler.lean ====
section
/-!
DEFINITION. The disassembler, a pure function of an instruction word and the word after it
(spec/30_encoding.md R78). Its text has the shape the assembler accepts; lower case and ", " are a
DESIGN CHOICE, safe (log entry 11), since the spec gives neither.
-/

namespace Sys2Proof.Machine

/-- A number in unsigned decimal (30 R78). -/
def decimalText (n : Nat) : List Char := Nat.toDigits 10 n

/-- A register operand, `rN` (30 R78). -/
def regText (r : Reg) : List Char := 'r' :: decimalText r.val

/-- One operand: a register by its field, or the next word in decimal, never a label (30 R78). -/
def operandText (w nw : Word) (r : Role) : List Char :=
  match r with
  | .dest => regText (fieldD w)
  | .srcA => regText (fieldA w)
  | .srcB => regText (fieldB w)
  | .addr => decimalText nw.toNat

/-- The operands of a line, each after a space, a comma after all but the last (30 R75). -/
def operandsText (ts : List (List Char)) : List Char :=
  match ts with
  | [] => []
  | [t] => ' ' :: t
  | t :: rest => ' ' :: t ++ ',' :: operandsText rest

/-- The text of one instruction, as characters: the name and the operands in the assembler's order;
`???` alone for an opcode that selects no operation (30 R78, decision D16). -/
def disassembleChars (w nw : Word) : List Char :=
  opName (opOf w) ++ operandsText ((opOperands (opOf w)).map (operandText w nw))

/-- `disassemble(instructionWord, nextWord)` of 30 R78. -/
def disassemble (w nw : Word) : String := String.ofList (disassembleChars w nw)

end Sys2Proof.Machine
end

