-- ==== Sys2Proof/Machine/HostOps.lean ====
section
/-!
DEFINITION. What the host does to the machine between batches and how it asks for one
(spec/70_reset_and_hazards.md R123 to R133). Reset is `State.init`; reading the state out is
`State.readReg`, `State.readMem` and the field `pc` (R132).
-/

namespace Sys2Proof.Machine

/-- `step(state, n)`: exactly `n` cycles in sequence (70 R124, R125). `n` is a natural number (R126). -/
def batch (n : Nat) (s : State) : Host.Outcome State Fault Refusal :=
  match n with
  | 0 => .next s
  | k + 1 =>
    match step s with
    | .next t => batch k t
    | .fault e => .fault e
    | .refused e => .refused e

/-- The image's words written over a memory. -/
def Memory.overwrite (m : Memory) (image : Image) : Memory :=
  match image with
  | [] => m
  | (a, w) :: rest => (m.write (BitVec.ofNat 16 a) w).overwrite rest

/-- Installing an image (70 R129): every emitted address holds its word, the PC and the registers are
as they were, and every other address holds some word, the one it has in `rest`, which is any memory
at all (the spec's decision D11, log entry 9). -/
def State.install (s : State) (image : Image) (rest : Memory) : State :=
  { s with mem := rest.overwrite image }

/-- What the host shows for the instruction at the PC (30 R78, 70 R132). -/
def disassembleAtPc (s : State) : String := disassemble s.fetchWord s.fetchNext

end Sys2Proof.Machine
end

