-- ==== Sys2Proof/Safety.lean ====
section
/-!
DEFINITION. The terms claims are made in: what a safe run is on a machine that cannot fail
(spec/60_exceptions.md R107), what one cycle leaves as it was, and the spec's own tables of what each
operation reads and writes (spec/10_state.md R15, spec/20_memory.md R33), and where a program text
defines and names labels (spec/30_encoding.md R66, R72).
-/

namespace Sys2Proof.Safety

open Sys2Proof.Machine

/-- The cycle from `s` ends in a next state. -/
def Steps (s : State) : Prop := ∃ t, step s = .next t

/-- Every register is as it was. -/
def SameRegs (s t : State) : Prop := ∀ r, t.readReg r = s.readReg r

/-- Every memory word is as it was. -/
def SameMem (s t : State) : Prop := ∀ a, t.readMem a = s.readMem a

/-- Every register but `d` and every memory word is as it was. -/
def OnlyReg (s t : State) (d : Reg) : Prop :=
  (∀ r, r ≠ d → t.readReg r = s.readReg r) ∧ SameMem s t

/-- Every memory word but the one at `a` and every register is as it was. -/
def OnlyMem (s t : State) (a : Word) : Prop :=
  (∀ b, b ≠ a → t.readMem b = s.readMem b) ∧ SameRegs s t

/-- Every register and every memory word is as it was. -/
def OnlyPc (s t : State) : Prop := SameRegs s t ∧ SameMem s t

/-- The PC has moved past an instruction of `n` words (10 R17). -/
def PcPast (s t : State) (n : Nat) : Prop := t.pc.toNat = (s.pc.toNat + n) % 65536

/-- The opcode value of the instruction word at the PC, `I[4:0]` (30 R49). -/
def opcodeAt (s : State) : Nat := (s.readMem s.pc).toNat % 32

/-- The `d` field of the word at the PC, `I[7:5]` (30 R49). -/
def dAt (s : State) : Reg := Fin.ofNat 8 ((s.readMem s.pc).toNat / 32)

/-- The `a` field of the word at the PC, `I[10:8]` (30 R49). -/
def aAt (s : State) : Reg := Fin.ofNat 8 ((s.readMem s.pc).toNat / 256)

/-- The `b` field of the word at the PC, `I[13:11]` (30 R49). -/
def bAt (s : State) : Reg := Fin.ofNat 8 ((s.readMem s.pc).toNat / 2048)

/-- The next word, `M[wrap16(pc + 1)]` (30 R54). -/
def nwAt (s : State) : Word := s.readMem (wrap16 (s.pc.toNat + 1))

/-- Wherever the word at the PC has opcode value `k`, whatever its don't-care bits, the cycle runs the
instruction that `i` makes of that state. -/
def RunsAs (k : Nat) (i : State → Instr) : Prop := ∀ s, opcodeAt s = k → step s = exec (i s) s

/-- The register an operation writes: the 'writes' column of 10 R15. -/
def destReg (i : Instr) : Option Reg :=
  match i with
  | .nop => none
  | .mv d _ => some d
  | .li d _ => some d
  | .ld d _ => some d
  | .ldind d _ => some d
  | .ldio d _ _ => some d
  | .stio _ _ _ => none
  | .add d _ _ => some d
  | .sub d _ _ => some d
  | .neg d _ => some d
  | .xor d _ _ => some d
  | .nand d _ _ => some d
  | .and d _ _ => some d
  | .or d _ _ => some d
  | .not d _ => some d
  | .j _ => none
  | .jnz _ _ => none
  | .jimm _ => none
  | .addi d _ _ => some d
  | .st _ _ => none
  | .jz _ _ => none
  | .jn _ _ => none
  | .invalid22 => none
  | .invalid23 => none
  | .invalid24 => none
  | .invalid25 => none
  | .invalid26 => none
  | .invalid27 => none
  | .invalid28 => none
  | .invalid29 => none
  | .invalid30 => none
  | .invalid31 => none

/-- The registers an operation reads: the 'reads' column of 10 R15. -/
def srcRegs (i : Instr) : List Reg :=
  match i with
  | .nop => []
  | .mv _ a => [a]
  | .li _ _ => []
  | .ld _ _ => []
  | .ldind _ a => [a]
  | .ldio _ a _ => [a]
  | .stio a b _ => [a, b]
  | .add _ a b => [a, b]
  | .sub _ a b => [a, b]
  | .neg _ a => [a]
  | .xor _ a b => [a, b]
  | .nand _ a b => [a, b]
  | .and _ a b => [a, b]
  | .or _ a b => [a, b]
  | .not _ a => [a]
  | .j a => [a]
  | .jnz a _ => [a]
  | .jimm _ => []
  | .addi _ a _ => [a]
  | .st _ a => [a]
  | .jz a _ => [a]
  | .jn a _ => [a]
  | .invalid22 => []
  | .invalid23 => []
  | .invalid24 => []
  | .invalid25 => []
  | .invalid26 => []
  | .invalid27 => []
  | .invalid28 => []
  | .invalid29 => []
  | .invalid30 => []
  | .invalid31 => []

/-- The memory words an operation reads as data, in order: 20 R33. -/
def dataReads (i : Instr) (s : State) : List Word :=
  match i with
  | .nop => []
  | .mv _ _ => []
  | .li _ _ => []
  | .ld _ nw => [nw, s.readMem nw]
  | .ldind _ a => [s.readReg a]
  | .ldio _ a nw => [s.effAddr a nw]
  | .stio _ _ _ => []
  | .add _ _ _ => []
  | .sub _ _ _ => []
  | .neg _ _ => []
  | .xor _ _ _ => []
  | .nand _ _ _ => []
  | .and _ _ _ => []
  | .or _ _ _ => []
  | .not _ _ => []
  | .j _ => []
  | .jnz _ _ => []
  | .jimm _ => []
  | .addi _ _ _ => []
  | .st _ _ => []
  | .jz _ _ => []
  | .jn _ _ => []
  | .invalid22 => []
  | .invalid23 => []
  | .invalid24 => []
  | .invalid25 => []
  | .invalid26 => []
  | .invalid27 => []
  | .invalid28 => []
  | .invalid29 => []
  | .invalid30 => []
  | .invalid31 => []

/-- The address an operation stores to, with the expression its meaning uses: 20 R33. -/
def storeTarget (i : Instr) (s : State) : Option Word :=
  match i with
  | .nop => none
  | .mv _ _ => none
  | .li _ _ => none
  | .ld _ _ => none
  | .ldind _ _ => none
  | .ldio _ _ _ => none
  | .stio a _ nw => some (s.effAddr a nw)
  | .add _ _ _ => none
  | .sub _ _ _ => none
  | .neg _ _ => none
  | .xor _ _ _ => none
  | .nand _ _ _ => none
  | .and _ _ _ => none
  | .or _ _ _ => none
  | .not _ _ => none
  | .j _ => none
  | .jnz _ _ => none
  | .jimm _ => none
  | .addi _ _ _ => none
  | .st nw _ => some nw
  | .jz _ _ => none
  | .jn _ _ => none
  | .invalid22 => none
  | .invalid23 => none
  | .invalid24 => none
  | .invalid25 => none
  | .invalid26 => none
  | .invalid27 => none
  | .invalid28 => none
  | .invalid29 => none
  | .invalid30 => none
  | .invalid31 => none

/-- The jump family (43 R101). -/
def isJump (i : Instr) : Bool :=
  match i with
  | .nop => false
  | .mv _ _ => false
  | .li _ _ => false
  | .ld _ _ => false
  | .ldind _ _ => false
  | .ldio _ _ _ => false
  | .stio _ _ _ => false
  | .add _ _ _ => false
  | .sub _ _ _ => false
  | .neg _ _ => false
  | .xor _ _ _ => false
  | .nand _ _ _ => false
  | .and _ _ _ => false
  | .or _ _ _ => false
  | .not _ _ => false
  | .j _ => true
  | .jnz _ _ => true
  | .jimm _ => true
  | .addi _ _ _ => false
  | .st _ _ => false
  | .jz _ _ => true
  | .jn _ _ => true
  | .invalid22 => false
  | .invalid23 => false
  | .invalid24 => false
  | .invalid25 => false
  | .invalid26 => false
  | .invalid27 => false
  | .invalid28 => false
  | .invalid29 => false
  | .invalid30 => false
  | .invalid31 => false

/-- An instruction with its registers renamed. -/
def renamed (f : Reg → Reg) (i : Instr) : Instr :=
  match i with
  | .nop => .nop
  | .mv d a => .mv (f d) (f a)
  | .li d nw => .li (f d) nw
  | .ld d nw => .ld (f d) nw
  | .ldind d a => .ldind (f d) (f a)
  | .ldio d a nw => .ldio (f d) (f a) nw
  | .stio a b nw => .stio (f a) (f b) nw
  | .add d a b => .add (f d) (f a) (f b)
  | .sub d a b => .sub (f d) (f a) (f b)
  | .neg d a => .neg (f d) (f a)
  | .xor d a b => .xor (f d) (f a) (f b)
  | .nand d a b => .nand (f d) (f a) (f b)
  | .and d a b => .and (f d) (f a) (f b)
  | .or d a b => .or (f d) (f a) (f b)
  | .not d a => .not (f d) (f a)
  | .j a => .j (f a)
  | .jnz a nw => .jnz (f a) nw
  | .jimm nw => .jimm nw
  | .addi d a nw => .addi (f d) (f a) nw
  | .st nw a => .st nw (f a)
  | .jz a nw => .jz (f a) nw
  | .jn a nw => .jn (f a) nw
  | .invalid22 => .invalid22
  | .invalid23 => .invalid23
  | .invalid24 => .invalid24
  | .invalid25 => .invalid25
  | .invalid26 => .invalid26
  | .invalid27 => .invalid27
  | .invalid28 => .invalid28
  | .invalid29 => .invalid29
  | .invalid30 => .invalid30
  | .invalid31 => .invalid31

/-- `line` is a line of the program `source`, after the lines `before` and with no line up to it that
ends the program text, and `st` is the assembler when it comes to it (30 R65). Its number is
`before.length + 1` (30 R76). -/
def SourceLine (source : List Char) (before : List (List Char)) (line : List Char) (st : AsmState) :
    Prop :=
  (∃ after, splitAtChars (fun c => c == '\n') source = before ++ line :: after) ∧
  (∀ l ∈ before ++ [line], cleanLine l ≠ []) ∧ asmLines 1 AsmState.start before = .ok st

/-- The program `source` has a line `name:`, which the assembler comes to with its cursor at `a`
(30 R66). -/
def DefinesLabel (source name : List Char) (a : Nat) : Prop :=
  ∃ before line st, SourceLine source before line st ∧ cleanLine line = name ++ [':'] ∧ st.cursor = a

/-- Line `n` of the program `source` is an instruction line whose address/immediate operand is `name`,
which is no number, and `a` is the address of that instruction's next word (30 R69, R70, R72). -/
def NamesLabel (source name : List Char) (n a : Nat) : Prop :=
  ∃ before line st m args o ts, ∃ k : Nat, SourceLine source before line st ∧
    n = before.length + 1 ∧ a = st.cursor + 1 ∧ (cleanLine line).getLast? ≠ some ':' ∧ tokensOf (cleanLine line) = m :: args ∧
    findMnemonic m = some o ∧ separateOperands args = some ts ∧ (opOperands o)[k]? = some Role.addr ∧
    ts[k]? = some name ∧ parseNumber name = none

end Sys2Proof.Safety
end

