-- ==== Sys2Proof/Certificates/Slice0/Obligations.lean ====
section
/-!
DEFINITION. The statements for the provers. Each docstring names the rule of spec/ it formalises, and
OBLIGATIONS.json says the same in words.
-/

open Sys2Proof Sys2Proof.Machine Sys2Proof.Safety

/-- NOP (R80): the PC is past one word, and every register and every memory word is as it was. The
opcode value and the field places are the spec's decisions D1 and D2 (log entries 4 and 5). -/
def Obligations.NopAdvancesThePcOnly : Prop :=
  RunsAs 0 (fun _ => .nop) ∧
  (encode .nop = [BitVec.ofNat 16 (0)]) ∧
  ∀ (s : State), ∃ t, exec .nop s = .next t ∧
    PcPast s t 1 ∧ OnlyPc s t

/-- MV (R81): register d holds what register a held, the PC is past one word, every other register
and every memory word is as it was. The opcode value and the field places are the spec's decisions
D1 and D2 (log entries 4 and 5). -/
def Obligations.MvCopiesARegister : Prop :=
  RunsAs 1 (fun s => .mv (dAt s) (aAt s)) ∧
  (∀ (d a : Reg), encode (.mv d a) = [BitVec.ofNat 16 (1 + 32 * d.val + 256 * a.val)]) ∧
  ∀ (d a : Reg) (s : State), ∃ t, exec (.mv d a) s = .next t ∧
    t.readReg d = s.readReg a ∧ PcPast s t 1 ∧ OnlyReg s t d

/-- LI (R82): register d holds the next word, the PC is past two words, every other register and
every memory word is as it was. The opcode value and the field places are the spec's decisions D1
and D2 (log entries 4 and 5). -/
def Obligations.LiLoadsTheNextWord : Prop :=
  RunsAs 2 (fun s => .li (dAt s) (nwAt s)) ∧
  (∀ (d : Reg) (nw : Word), encode (.li d nw) = [BitVec.ofNat 16 (2 + 32 * d.val), nw]) ∧
  ∀ (d : Reg) (nw : Word) (s : State), ∃ t, exec (.li d nw) s = .next t ∧
    t.readReg d = nw ∧ PcPast s t 2 ∧ OnlyReg s t d

/-- LD (R84): register d holds the memory word at the address that the memory word at nw holds,
the PC is past two words, every other register and every memory word is as it was. The two levels
are the literal reading the spec decides on (D7, C3; log entry 8). The opcode value and the field
places are the spec's decisions D1 and D2 (log entries 4 and 5). -/
def Obligations.LdLoadsThroughAPointer : Prop :=
  RunsAs 3 (fun s => .ld (dAt s) (nwAt s)) ∧
  (∀ (d : Reg) (nw : Word), encode (.ld d nw) = [BitVec.ofNat 16 (3 + 32 * d.val), nw]) ∧
  ∀ (d : Reg) (nw : Word) (s : State), ∃ t, exec (.ld d nw) s = .next t ∧
    t.readReg d = s.readMem (s.readMem nw) ∧ PcPast s t 2 ∧ OnlyReg s t d

/-- LDIND (R85): register d holds the memory word at the address register a held, the PC is past
one word, every other register and every memory word is as it was. The opcode value and the field
places are the spec's decisions D1 and D2 (log entries 4 and 5). -/
def Obligations.LdindLoadsFromARegisterAddress : Prop :=
  RunsAs 4 (fun s => .ldind (dAt s) (aAt s)) ∧
  (∀ (d a : Reg), encode (.ldind d a) = [BitVec.ofNat 16 (4 + 32 * d.val + 256 * a.val)]) ∧
  ∀ (d a : Reg) (s : State), ∃ t, exec (.ldind d a) s = .next t ∧
    t.readReg d = s.readMem (s.readReg a) ∧ PcPast s t 1 ∧ OnlyReg s t d

/-- LDIO (R86): register d holds the memory word at the address (x[a] + nw) mod 65536, the PC is
past two words, every other register and every memory word is as it was. The opcode value and the
field places are the spec's decisions D1 and D2 (log entries 4 and 5). -/
def Obligations.LdioLoadsFromBasePlusOffset : Prop :=
  RunsAs 5 (fun s => .ldio (dAt s) (aAt s) (nwAt s)) ∧
  (∀ (d a : Reg) (nw : Word), encode (.ldio d a nw) = [BitVec.ofNat 16 (5 + 32 * d.val + 256 * a.val), nw]) ∧
  ∀ (d a : Reg) (nw : Word) (s : State), ∃ t, exec (.ldio d a nw) s = .next t ∧
    (∃ ea : Word, ea.toNat = ((s.readReg a).toNat + nw.toNat) % 65536 ∧ t.readReg d = s.readMem ea) ∧
    PcPast s t 2 ∧ OnlyReg s t d

/-- STIO (R87): the address stored to is (x[a] + nw) mod 65536, the memory word there is what
register b held, the PC is past two words, every other memory word and every register is as it
was. The opcode value and the field places are the spec's decisions D1 and D2 (log entries 4 and
5). -/
def Obligations.StioStoresAtBasePlusOffset : Prop :=
  RunsAs 6 (fun s => .stio (aAt s) (bAt s) (nwAt s)) ∧
  (∀ (a b : Reg) (nw : Word), encode (.stio a b nw) = [BitVec.ofNat 16 (6 + 256 * a.val + 2048 * b.val), nw]) ∧
  ∀ (a b : Reg) (nw : Word) (s : State), ∃ t, exec (.stio a b nw) s = .next t ∧
    (s.effAddr a nw).toNat = ((s.readReg a).toNat + nw.toNat) % 65536 ∧
    t.readMem (s.effAddr a nw) = s.readReg b ∧ PcPast s t 2 ∧ OnlyMem s t (s.effAddr a nw)

/-- ST (R88): the memory word at nw is what register a held, the PC is past two words, every other
memory word and every register is as it was. The opcode value and the field places are the spec's
decisions D1 and D2 (log entries 4 and 5). -/
def Obligations.StStoresAtTheNextWord : Prop :=
  RunsAs 19 (fun s => .st (nwAt s) (aAt s)) ∧
  (∀ (nw : Word) (a : Reg), encode (.st nw a) = [BitVec.ofNat 16 (19 + 256 * a.val), nw]) ∧
  ∀ (nw : Word) (a : Reg) (s : State), ∃ t, exec (.st nw a) s = .next t ∧
    t.readMem nw = s.readReg a ∧ PcPast s t 2 ∧ OnlyMem s t nw

/-- ADD (R90): register d holds (x[a] + x[b]) mod 65536 of the old values, the PC is past one
word, every other register and every memory word is as it was. The opcode value and the field
places are the spec's decisions D1 and D2 (log entries 4 and 5). -/
def Obligations.AddWritesTheSumModulo65536 : Prop :=
  RunsAs 7 (fun s => .add (dAt s) (aAt s) (bAt s)) ∧
  (∀ (d a b : Reg), encode (.add d a b) = [BitVec.ofNat 16 (7 + 32 * d.val + 256 * a.val + 2048 * b.val)]) ∧
  ∀ (d a b : Reg) (s : State), ∃ t, exec (.add d a b) s = .next t ∧
    (t.readReg d).toNat = ((s.readReg a).toNat + (s.readReg b).toNat) % 65536 ∧
    PcPast s t 1 ∧ OnlyReg s t d

/-- SUB (R91): register d holds (x[a] - x[b]) mod 65536 of the old values, never negative, the PC
is past one word, every other register and every memory word is as it was. The opcode value and
the field places are the spec's decisions D1 and D2 (log entries 4 and 5). -/
def Obligations.SubWritesTheDifferenceModulo65536 : Prop :=
  RunsAs 8 (fun s => .sub (dAt s) (aAt s) (bAt s)) ∧
  (∀ (d a b : Reg), encode (.sub d a b) = [BitVec.ofNat 16 (8 + 32 * d.val + 256 * a.val + 2048 * b.val)]) ∧
  ∀ (d a b : Reg) (s : State), ∃ t, exec (.sub d a b) s = .next t ∧
    ((t.readReg d).toNat : Int) = (((s.readReg a).toNat : Int) - (s.readReg b).toNat) % 65536 ∧
    PcPast s t 1 ∧ OnlyReg s t d

/-- NEG (R92): register d holds 0 if register a held 0 and 65536 - x[a] otherwise, the PC is past
one word, every other register and every memory word is as it was. The opcode value and the field
places are the spec's decisions D1 and D2 (log entries 4 and 5). -/
def Obligations.NegWritesTheNegationModulo65536 : Prop :=
  RunsAs 9 (fun s => .neg (dAt s) (aAt s)) ∧
  (∀ (d a : Reg), encode (.neg d a) = [BitVec.ofNat 16 (9 + 32 * d.val + 256 * a.val)]) ∧
  ∀ (d a : Reg) (s : State), ∃ t, exec (.neg d a) s = .next t ∧
    (t.readReg d).toNat = (if (s.readReg a).toNat = 0 then 0 else 65536 - (s.readReg a).toNat) ∧
    PcPast s t 1 ∧ OnlyReg s t d

/-- XOR (R93): each of the 16 bits of register d is 1 exactly when that bit of x[a] and of x[b]
differ, the PC is past one word, every other register and every memory word is as it was. The
opcode value and the field places are the spec's decisions D1 and D2 (log entries 4 and 5). -/
def Obligations.XorWritesTheBitwiseExclusiveOr : Prop :=
  RunsAs 10 (fun s => .xor (dAt s) (aAt s) (bAt s)) ∧
  (∀ (d a b : Reg), encode (.xor d a b) = [BitVec.ofNat 16 (10 + 32 * d.val + 256 * a.val + 2048 * b.val)]) ∧
  ∀ (d a b : Reg) (s : State), ∃ t, exec (.xor d a b) s = .next t ∧
    (∀ k < 16, (t.readReg d).getLsbD k = ((s.readReg a).getLsbD k != (s.readReg b).getLsbD k)) ∧
    PcPast s t 1 ∧ OnlyReg s t d

/-- NAND (R94): register d holds 65535 minus the word whose bits are the ands of the bits of x[a]
and x[b], the PC is past one word, every other register and every memory word is as it was. The
opcode value and the field places are the spec's decisions D1 and D2 (log entries 4 and 5). -/
def Obligations.NandWritesTheComplementOfTheAnd : Prop :=
  RunsAs 11 (fun s => .nand (dAt s) (aAt s) (bAt s)) ∧
  (∀ (d a b : Reg), encode (.nand d a b) = [BitVec.ofNat 16 (11 + 32 * d.val + 256 * a.val + 2048 * b.val)]) ∧
  ∀ (d a b : Reg) (s : State), ∃ t, exec (.nand d a b) s = .next t ∧
    (∃ v : Word, (∀ k < 16, v.getLsbD k = ((s.readReg a).getLsbD k && (s.readReg b).getLsbD k)) ∧
      (t.readReg d).toNat = 65535 - v.toNat) ∧ PcPast s t 1 ∧ OnlyReg s t d

/-- AND (R95): each of the 16 bits of register d is the and of that bit of x[a] and of x[b], the
PC is past one word, every other register and every memory word is as it was. The opcode value and
the field places are the spec's decisions D1 and D2 (log entries 4 and 5). -/
def Obligations.AndWritesTheBitwiseAnd : Prop :=
  RunsAs 12 (fun s => .and (dAt s) (aAt s) (bAt s)) ∧
  (∀ (d a b : Reg), encode (.and d a b) = [BitVec.ofNat 16 (12 + 32 * d.val + 256 * a.val + 2048 * b.val)]) ∧
  ∀ (d a b : Reg) (s : State), ∃ t, exec (.and d a b) s = .next t ∧
    (∀ k < 16, (t.readReg d).getLsbD k = ((s.readReg a).getLsbD k && (s.readReg b).getLsbD k)) ∧
    PcPast s t 1 ∧ OnlyReg s t d

/-- OR (R96): each of the 16 bits of register d is the or of that bit of x[a] and of x[b], the PC
is past one word, every other register and every memory word is as it was. The opcode value and
the field places are the spec's decisions D1 and D2 (log entries 4 and 5). -/
def Obligations.OrWritesTheBitwiseOr : Prop :=
  RunsAs 13 (fun s => .or (dAt s) (aAt s) (bAt s)) ∧
  (∀ (d a b : Reg), encode (.or d a b) = [BitVec.ofNat 16 (13 + 32 * d.val + 256 * a.val + 2048 * b.val)]) ∧
  ∀ (d a b : Reg) (s : State), ∃ t, exec (.or d a b) s = .next t ∧
    (∀ k < 16, (t.readReg d).getLsbD k = ((s.readReg a).getLsbD k || (s.readReg b).getLsbD k)) ∧
    PcPast s t 1 ∧ OnlyReg s t d

/-- NOT (R97): register d holds 65535 - x[a], the PC is past one word, every other register and
every memory word is as it was. The opcode value and the field places are the spec's decisions D1
and D2 (log entries 4 and 5). -/
def Obligations.NotWritesTheComplement : Prop :=
  RunsAs 14 (fun s => .not (dAt s) (aAt s)) ∧
  (∀ (d a : Reg), encode (.not d a) = [BitVec.ofNat 16 (14 + 32 * d.val + 256 * a.val)]) ∧
  ∀ (d a : Reg) (s : State), ∃ t, exec (.not d a) s = .next t ∧
    (t.readReg d).toNat = 65535 - (s.readReg a).toNat ∧ PcPast s t 1 ∧ OnlyReg s t d

/-- ADDI (R98): register d holds (x[a] + nw) mod 65536, the PC is past two words, every other
register and every memory word is as it was. The opcode value and the field places are the spec's
decisions D1 and D2 (log entries 4 and 5). -/
def Obligations.AddiWritesTheSumWithTheNextWord : Prop :=
  RunsAs 18 (fun s => .addi (dAt s) (aAt s) (nwAt s)) ∧
  (∀ (d a : Reg) (nw : Word), encode (.addi d a nw) = [BitVec.ofNat 16 (18 + 32 * d.val + 256 * a.val), nw]) ∧
  ∀ (d a : Reg) (nw : Word) (s : State), ∃ t, exec (.addi d a nw) s = .next t ∧
    (t.readReg d).toNat = ((s.readReg a).toNat + nw.toNat) % 65536 ∧ PcPast s t 2 ∧ OnlyReg s t d

/-- J (R102): the PC is what register a holds, every register and every memory word is as it was.
The opcode value and the field places are the spec's decisions D1 and D2 (log entries 4 and 5). -/
def Obligations.JJumpsToTheRegister : Prop :=
  RunsAs 15 (fun s => .j (aAt s)) ∧
  (∀ (a : Reg), encode (.j a) = [BitVec.ofNat 16 (15 + 256 * a.val)]) ∧
  ∀ (a : Reg) (s : State), ∃ t, exec (.j a) s = .next t ∧
    t.pc = s.readReg a ∧ OnlyPc s t

/-- JNZ (R103): the PC is nw if x[a] is not 0 and past two words otherwise, every register and
every memory word is as it was. The opcode value and the field places are the spec's decisions D1
and D2 (log entries 4 and 5). -/
def Obligations.JnzJumpsWhenNotZero : Prop :=
  RunsAs 16 (fun s => .jnz (aAt s) (nwAt s)) ∧
  (∀ (a : Reg) (nw : Word), encode (.jnz a nw) = [BitVec.ofNat 16 (16 + 256 * a.val), nw]) ∧
  ∀ (a : Reg) (nw : Word) (s : State), ∃ t, exec (.jnz a nw) s = .next t ∧
    (if (s.readReg a).toNat ≠ 0 then t.pc = nw else PcPast s t 2) ∧ OnlyPc s t

/-- JIMM (R104): the PC is nw, every register and every memory word is as it was. The opcode value
and the field places are the spec's decisions D1 and D2 (log entries 4 and 5). -/
def Obligations.JimmJumpsToTheNextWord : Prop :=
  RunsAs 17 (fun s => .jimm (nwAt s)) ∧
  (∀ (nw : Word), encode (.jimm nw) = [BitVec.ofNat 16 (17), nw]) ∧
  ∀ (nw : Word) (s : State), ∃ t, exec (.jimm nw) s = .next t ∧
    t.pc = nw ∧ OnlyPc s t

/-- JZ (R105): the PC is nw if x[a] is 0 and past two words otherwise, every register and every
memory word is as it was. The opcode value and the field places are the spec's decisions D1 and D2
(log entries 4 and 5). -/
def Obligations.JzJumpsWhenZero : Prop :=
  RunsAs 20 (fun s => .jz (aAt s) (nwAt s)) ∧
  (∀ (a : Reg) (nw : Word), encode (.jz a nw) = [BitVec.ofNat 16 (20 + 256 * a.val), nw]) ∧
  ∀ (a : Reg) (nw : Word) (s : State), ∃ t, exec (.jz a nw) s = .next t ∧
    (if (s.readReg a).toNat = 0 then t.pc = nw else PcPast s t 2) ∧ OnlyPc s t

/-- JN (R106): the PC is nw if x[a] is 32768 or above and past two words otherwise, every register
and every memory word is as it was. The opcode value and the field places are the spec's decisions
D1 and D2 (log entries 4 and 5). -/
def Obligations.JnJumpsWhenNegative : Prop :=
  RunsAs 21 (fun s => .jn (aAt s) (nwAt s)) ∧
  (∀ (a : Reg) (nw : Word), encode (.jn a nw) = [BitVec.ofNat 16 (21 + 256 * a.val), nw]) ∧
  ∀ (a : Reg) (nw : Word) (s : State), ∃ t, exec (.jn a nw) s = .next t ∧
    (if 32768 ≤ (s.readReg a).toNat then t.pc = nw else PcPast s t 2) ∧ OnlyPc s t

/-- Opcode values 22 to 31 (R83): identical to NOP, one word long, nothing read or written, never
a stop. The opcode value and the field places are the spec's decisions D1 and D2 (log entries 4
and 5). -/
def Obligations.InvalidOpcodesActAsNop : Prop :=
  (∀ s, 22 ≤ opcodeAt s → ∃ t, step s = .next t ∧ PcPast s t 1 ∧ OnlyPc s t) ∧
  ([.invalid22, .invalid23, .invalid24, .invalid25, .invalid26,
      .invalid27, .invalid28, .invalid29, .invalid30, .invalid31] : List Instr).map encode =
    [[22], [23], [24], [25], [26], [27], [28], [29], [30], [31]] ∧
  (∀ i ∈ ([.invalid22, .invalid23, .invalid24, .invalid25, .invalid26,
      .invalid27, .invalid28, .invalid29, .invalid30, .invalid31] : List Instr), ∀ s, exec i s = exec .nop s ∧
      ∃ t, exec i s = .next t ∧ PcPast s t 1 ∧ OnlyPc s t) ∧
  (∀ w nw : Word, 22 ≤ w.toNat % 32 → disassembleChars w nw = ['?', '?', '?']) ∧
  ∀ t o, findMnemonic t = some o → opNumber o < 22

/-- The cycle: fetch, decode, execute (R61 to R63). That the next word of an instruction at 65535
is at address 0 is decision D5. -/
def Obligations.StepRunsTheDecodedInstruction : Prop :=
  ∀ s : State, (∃ i rest, decodeWords [s.readMem s.pc, nwAt s] = .ok (i, rest)) ∧
    ∀ i rest, decodeWords [s.readMem s.pc, nwAt s] = .ok (i, rest) → step s = exec i s

/-- Placing an instruction stands for the host's install (log entry 9). -/
def Obligations.PlacedInstructionIsTheOneThatRuns : Prop :=
  ∀ (s : State) (nbits w : Nat) (i : Instr), decodeTableWord nbits w = some i →
    step (s.withFetchWord nbits w) = exec i (s.withFetchWord nbits w) ∧
    (s.withFetchWord nbits w).pc = s.pc ∧ SameRegs s (s.withFetchWord nbits w) ∧
    ∀ a, a ≠ s.pc → a ≠ wrap16 (s.pc.toNat + 1) →
      (s.withFetchWord nbits w).readMem a = s.readMem a

/-- The step function is total (R107): the machine raises no exception of any kind. -/
def Obligations.EveryStepAnswersANextState : Prop :=
  (∀ s, Steps s) ∧ (∀ (i : Instr) (s : State), ∃ t, exec i s = .next t)

/-- The host operation step(state, n) (R125). That n is a natural number is decision D12 (log
entry 9). -/
def Obligations.BatchRunsCyclesInSequence : Prop :=
  (∀ n s, ∃ t, batch n s = .next t) ∧ (∀ s, batch 0 s = .next s) ∧
  (∀ n s t, step s = .next t → batch (n + 1) s = batch n t) ∧
  ∀ m n s t, batch m s = .next t → batch (m + n) s = batch n t

/-- The frame of all 32 instructions at once, over the spec's own tables. -/
def Obligations.OnlyTheDestinationAndTheTargetChange : Prop :=
  ∀ (i : Instr) (s t : State), exec i s = .next t →
    (∀ r, destReg i ≠ some r → t.readReg r = s.readReg r) ∧
    (∀ a, storeTarget i s ≠ some a → t.readMem a = s.readMem a) ∧
    (destReg i = none ∨ storeTarget i s = none)

/-- The PC rule of R17 for the operations outside the jump family. -/
def Obligations.PcMovesPastEveryInstructionButJumps : Prop :=
  ∀ (i : Instr) (s t : State), isJump i = false → exec i s = .next t →
    PcPast s t (if i.op ∈ [.li, .ld, .ldio, .stio, .addi, .st] then 2 else 1)

/-- The canonical form is the model's way to hold the 65536 words (log entry 1). -/
def Obligations.StepKeepsTheMemoryCanonical : Prop :=
  ∀ s t : State, s.mem.wf = true → step s = .next t → t.mem.wf = true

/-- PC 0 is R23. The zeros are one of the contents R26 permits, chosen by the model (log entries 2
and 3). -/
def Obligations.ResetStateIsAtZeroWithCanonicalMemory : Prop :=
  State.reset.pc = 0 ∧ State.reset.mem.wf = true ∧ (∀ r, State.reset.readReg r = 0) ∧
  ∀ a, State.reset.readMem a = 0

/-- R23 to R25: PC 0, every register and every memory word any word. The clause mem.wf is about
the model's own form of memory, a design choice (log entry 1), and is no rule of the spec. -/
def Obligations.ResetMayLeaveAnyContents : Prop :=
  (∀ regs mem, (State.init regs mem).pc = 0) ∧
  ∀ (f : Reg → Word) (g : Word → Word), ∃ regs mem, mem.wf = true ∧
    (∀ r, (State.init regs mem).readReg r = f r) ∧ ∀ a, (State.init regs mem).readMem a = g a

/-- No bit of an encoding is dropped. The layout and the numbering are the decisions D1 and D2 of
the spec. -/
def Obligations.DecodeOfEncodeIsTheInstruction : Prop :=
  ∀ (i : Instr) (rest : List Word), decodeWords (encode i ++ rest) = .ok (i, rest)

/-- Canonical encodings and instructions correspond one to one. -/
def Obligations.EncodeOfDecodeIsTheCanonicalWords : Prop :=
  ∀ ws : List Word, wellFormed ws = true → ∃ i, decodeWords ws = .ok (i, []) ∧ encode i = ws

/-- R50, the decision D3 of the spec. -/
def Obligations.SpareBitsAreIgnored : Prop :=
  ∀ w w' nw : Word, w.toNat % 16384 = w'.toNat % 16384 → decode w nw = decode w' nw

/-- R53, the decision D4 of the spec. -/
def Obligations.UnusedFieldsAreIgnored : Prop :=
  ∀ w w' nw nw' : Word, w.toNat % 32 = w'.toNat % 32 →
    (opUses (opOf w) .dest = true → fieldD w = fieldD w') →
    (opUses (opOf w) .srcA = true → fieldA w = fieldA w') →
    (opUses (opOf w) .srcB = true → fieldB w = fieldB w') →
    (opUses (opOf w) .addr = true → nw = nw') → decode w nw = decode w' nw'

/-- R48. The opcode value and the field places are the spec's decisions D1 and D2 (log entries 4
and 5). -/
def Obligations.LengthIsToldByTheOpcode : Prop :=
  ∀ (w nw : Word) (rest : List Word), ∃ i, decodeWords (w :: nw :: rest) =
    .ok (i, if opOf w ∈ [.li, .ld, .ldio, .stio, .jnz, .jimm, .addi, .st, .jz, .jn] then rest
      else nw :: rest)

/-- Worked encodings of the spec's vectors. The opcode value and the field places are the spec's
decisions D1 and D2 (log entries 4 and 5). -/
def Obligations.WrittenOutWordsDecodeAsTheSpecSays : Prop :=
  decode 0x0847 0 = .add 2 0 1 ∧ decode 0xC847 0 = .add 2 0 1 ∧ decode 0xFD61 0 = .mv 3 5 ∧
  decode 0x1806 0x0016 = .stio 0 3 22 ∧ decode 0x0065 0xFFFF = .ldio 3 0 65535 ∧
  decode 0xFFF1 0x0008 = .jimm 8 ∧ decode 0xFFE0 0 = .nop ∧ decode 0x00BF 17 = .invalid31

/-- R34: every word, at every address, is plain storage. -/
def Obligations.WriteChangesTheAddressedWordOnly : Prop :=
  ∀ (s : State) (a v b : Word),
    (s.writeMem a v).readMem b = (if b = a then v else s.readMem b) ∧
    (s.writeMem a v).pc = s.pc ∧ SameRegs s (s.writeMem a v)

/-- So equal states of the spec are equal states of the model (log entry 1). -/
def Obligations.CanonicalMemoriesThatReadAlikeAreEqual : Prop :=
  ∀ m m' : Memory, m.wf = true → m'.wf = true → (∀ a, m.read a = m'.read a) → m = m'

/-- R43, which the spec derives from its rules: fetch is coherent with stores at once. -/
def Obligations.StoreIsSeenByTheNextFetch : Prop :=
  (∀ (s t : State) (nw : Word) (a : Reg), exec (.st nw a) s = .next t →
    (nw = wrap16 (s.pc.toNat + 2) → step t = exec (decode (s.readReg a) (nwAt t)) t) ∧
    (nw = wrap16 (s.pc.toNat + 3) → step t = exec (decode (t.readMem t.pc) (s.readReg a)) t)) ∧
  ∀ (s t : State) (nw : Word) (a b : Reg), exec (.stio a b nw) s = .next t →
    (s.effAddr a nw = wrap16 (s.pc.toNat + 2) →
      step t = exec (decode (s.readReg b) (nwAt t)) t) ∧
    (s.effAddr a nw = wrap16 (s.pc.toNat + 3) →
      step t = exec (decode (t.readMem t.pc) (s.readReg b)) t)

/-- R44, which the spec derives from decision D6: all reads of a cycle come before its writes. -/
def Obligations.StoreOverItselfDoesNotAffectTheInstruction : Prop :=
  (∀ s, opcodeAt s = 19 → (nwAt s = s.pc ∨ nwAt s = wrap16 (s.pc.toNat + 1)) →
    ∃ t, step s = .next t ∧ t.readMem (nwAt s) = s.readReg (aAt s) ∧ PcPast s t 2 ∧
      OnlyMem s t (nwAt s)) ∧
  ∀ s, opcodeAt s = 6 → (s.effAddr (aAt s) (nwAt s) = s.pc ∨
      s.effAddr (aAt s) (nwAt s) = wrap16 (s.pc.toNat + 1)) →
    ∃ t, step s = .next t ∧ t.readMem (s.effAddr (aAt s) (nwAt s)) = s.readReg (bAt s) ∧
      PcPast s t 2 ∧ OnlyMem s t (s.effAddr (aAt s) (nwAt s))

/-- R32, the decision D5 of the spec. The opcode values and the field places are the decisions D1
and D2 (log entries 4 and 5). -/
def Obligations.NextWordOfTheLastAddressIsAtZero : Prop :=
  ∀ (s : State) (nw p : Word),
    (s.pc.toNat = 65535 ∧ nw = s.readMem 0 ∧ p = 1) ∨
      (s.pc.toNat = 65534 ∧ nw = s.readMem 65535 ∧ p = 0) →
    opcodeAt s ∈ [2, 3, 5, 6, 16, 17, 18, 19, 20, 21] →
    ∃ t, step s = .next t ∧
      (opcodeAt s = 2 → t.readReg (dAt s) = nw) ∧
      (opcodeAt s = 3 → t.readReg (dAt s) = s.readMem (s.readMem nw)) ∧
      (opcodeAt s = 5 → t.readReg (dAt s) = s.readMem (wrap16 ((s.readReg (aAt s)).toNat + nw.toNat))) ∧
      (opcodeAt s = 6 →
        t.readMem (wrap16 ((s.readReg (aAt s)).toNat + nw.toNat)) = s.readReg (bAt s)) ∧
      (opcodeAt s = 16 → t.pc = if s.readReg (aAt s) ≠ 0 then nw else p) ∧
      (opcodeAt s = 17 → t.pc = nw) ∧
      (opcodeAt s = 18 → t.readReg (dAt s) = wrap16 ((s.readReg (aAt s)).toNat + nw.toNat)) ∧
      (opcodeAt s = 19 → t.readMem nw = s.readReg (aAt s)) ∧
      (opcodeAt s = 20 → t.pc = if s.readReg (aAt s) = 0 then nw else p) ∧
      (opcodeAt s = 21 → t.pc = if 32768 ≤ (s.readReg (aAt s)).toNat then nw else p) ∧
      (opcodeAt s ∈ [2, 3, 5, 6, 18, 19] → t.pc = p)

/-- The idle loop of R104 and R133. -/
def Obligations.SelfJumpKeepsTheStateForEver : Prop :=
  ∀ (s : State) (n : Nat), (opcodeAt s = 17 ∧ nwAt s = s.pc) ∨
    (opcodeAt s = 15 ∧ s.readReg (aAt s) = s.pc) → batch n s = .next s

/-- Double complement and double negation are the identity on 16 bits; negation is complement plus
1. -/
def Obligations.ComplementAndNegationUndoThemselves : Prop :=
  ∀ (r q : Reg) (s : State),
    (∃ t u, exec (.not r q) s = .next t ∧ exec (.not r r) t = .next u ∧
      u.readReg r = s.readReg q) ∧
    (∃ t u, exec (.neg r q) s = .next t ∧ exec (.neg r r) t = .next u ∧
      u.readReg r = s.readReg q) ∧
    ∃ t u v, exec (.not r q) s = .next t ∧ exec (.addi r r 1) t = .next u ∧
      exec (.neg r q) s = .next v ∧ v.readReg r = u.readReg r

/-- The signed comparison of R91 and R106. -/
def Obligations.SubThenJnComparesAsSigned : Prop :=
  ∀ (s : State) (d p q : Reg) (nw : Word),
    -32768 ≤ (s.readReg p).toInt - (s.readReg q).toInt →
    (s.readReg p).toInt - (s.readReg q).toInt ≤ 32767 →
    ∃ t u, exec (.sub d p q) s = .next t ∧ exec (.jn d nw) t = .next u ∧
      if (s.readReg p).toInt < (s.readReg q).toInt then u.pc = nw else PcPast t u 2

/-- The exact complement of R105. -/
def Obligations.JzAndJnzAreComplementary : Prop :=
  ∀ (s : State) (a : Reg) (nw : Word), ∃ t u,
    exec (.jz a nw) s = .next t ∧ exec (.jnz a nw) s = .next u ∧
    ((t.pc = nw ∧ PcPast s u 2) ∨ (PcPast s t 2 ∧ u.pc = nw))

/-- R14: no register is hardwired or special, no instruction treats one index differently from
another. -/
def Obligations.RegistersAreAllAlike : Prop :=
  ∀ (f : Equiv.Perm Reg) (i : Instr) (s s' t : State), s'.pc = s.pc → SameMem s s' →
    (∀ r, s'.readReg (f r) = s.readReg r) → exec i s = .next t →
    ∃ t', exec (renamed f i) s' = .next t' ∧ t'.pc = t.pc ∧ SameMem t t' ∧
      ∀ r, t'.readReg (f r) = t.readReg r

/-- Nothing else of the state, written or not, can influence the outcome. -/
def Obligations.OutcomeDependsOnlyOnWhatIsRead : Prop :=
  ∀ (i : Instr) (s s' t t' : State), s.pc = s'.pc →
    (∀ r ∈ srcRegs i, s.readReg r = s'.readReg r) →
    (∀ a ∈ dataReads i s, s.readMem a = s'.readMem a) →
    exec i s = .next t → exec i s' = .next t' →
    t.pc = t'.pc ∧ (∀ d, destReg i = some d → t.readReg d = t'.readReg d) ∧
    storeTarget i s = storeTarget i s' ∧
    ∀ a, storeTarget i s = some a → t.readMem a = t'.readMem a

/-- R129 with decision D11: what the image does not emit is any word, the argument rest. The last
clause, on wf, is about the model's own form of memory, a design choice (log entry 1), and does
not follow from R129 or D11. -/
def Obligations.InstallPlacesExactlyTheImage : Prop :=
  ∀ (s : State) (image : Image) (rest : Memory), (image.map Prod.fst).Nodup →
    (∀ c ∈ image, c.1 < 65536) →
    (s.install image rest).pc = s.pc ∧ SameRegs s (s.install image rest) ∧
    (∀ c ∈ image, (s.install image rest).readMem (BitVec.ofNat 16 c.1) = c.2) ∧
    (∀ a : Word, a.toNat ∉ image.map Prod.fst →
      (s.install image rest).readMem a = rest.read a) ∧
    (rest.wf = true → (s.install image rest).mem.wf = true)

/-- The cursor only moves forward (R67), so no word is placed twice. -/
def Obligations.AssembledImagesNameEachAddressOnce : Prop :=
  ∀ (source : List Char) (image : Image), assembleChars source = .ok image →
    (image.map Prod.fst).Pairwise (· < ·) ∧ ∀ c ∈ image, c.1 < 65536

/-- The assembler and the decoder agree on the layout. -/
def Obligations.AssembledInstructionsAreCanonical : Prop :=
  ∀ (line : Nat) (st st' : AsmState) (m : List Char) (args : List (List Char)),
    asmInstruction line st m args = .ok st' →
    ∃ w rest, st'.items = st.items ++ (st.cursor, .word w) :: rest ∧ canonical w = true ∧
      findMnemonic m = some (opOf w) ∧ opDefined (opOf w) = true ∧
      rest.length = opNextWords (opOf w)

/-- R73 and S9, of whole texts: resolution uses the labels of all lines of the program, whatever
their order. -/
def Obligations.LabelsResolveToTheirAddresses : Prop :=
  ∀ source : List Char,
    (∀ image, assembleChars source = .ok image → ∀ name n a, NamesLabel source name n a →
      (∃ t, DefinesLabel source name t) ∧
      ∀ t, DefinesLabel source name t → t < 65536 ∧ (a, BitVec.ofNat 16 t) ∈ image) ∧
    (∀ n, assembleChars source = .error (.diagnostic n .unresolvedLabel) →
      ∃ name a, NamesLabel source name n a ∧ ∀ t, ¬DefinesLabel source name t) ∧
    ((∃ st, asmLines 1 AsmState.start (splitAtChars (fun c => c == '\n') source) = .ok st) →
      (∃ name n a, NamesLabel source name n a ∧ ∀ t, ¬DefinesLabel source name t) →
      ∃ n, assembleChars source = .error (.diagnostic n .unresolvedLabel))

/-- R65: what follows an empty line is not processed. -/
def Obligations.TextAfterABlankLineIsIgnored : Prop :=
  ∀ source blank more : List Char, '\n' ∉ blank → cleanLine blank = [] →
    assembleChars (source ++ '\n' :: blank ++ '\n' :: more) = assembleChars source

/-- R79. The letter case and spacing of the text are the model's choice (log entry 11). -/
def Obligations.DisassembledLinesAssembleToTheSameWords : Prop :=
  ∀ i : Instr, opDefined i.op = true →
    assembleChars (disassembleChars (encodeWord i) ((encodeNext i).headD 0)) =
      .ok ((encode i).zipIdx.map fun p => (p.2, p.1))

/-- R73, of one given table. That the table is that of the whole text is
LabelsResolveToTheirAddresses. -/
def Obligations.ResolveReplacesEachReferenceByItsTableEntry : Prop :=
  ∀ (labels : List (List Char × Nat)) (items : List (Nat × Emitted)),
    (∀ image, resolve labels items = .ok image →
      image.map Prod.fst = items.map Prod.fst ∧
      (∀ a w, (a, Emitted.word w) ∈ items → (a, w) ∈ image) ∧
      ∀ a name line, (a, Emitted.label name line) ∈ items →
        ∃ t, labels.lookup name = some t ∧ (a, BitVec.ofNat 16 t) ∈ image) ∧
    ∀ e, resolve labels items = .error e → ∃ a name line,
      (a, Emitted.label name line) ∈ items ∧ labels.lookup name = none ∧
      e = .diagnostic line .unresolvedLabel

/-- R67. Arguments with a comma, $ or %, and those that begin with a digit and are no decimal
number, are left to the model's choice (log entry 10) and not named here. -/
def Obligations.OrgMovesTheCursorForwardOnly : Prop :=
  ∀ (line : Nat) (st : AsmState),
    (∀ n < 65536, asmOrg line st [decimalText n] =
      if n < st.cursor then .error (.diagnostic line .nonMonotonicOrg)
      else .ok { st with cursor := n }) ∧
    (∀ n > 0, asmOrg line st ['-' :: decimalText n] = .error (.diagnostic line .nonMonotonicOrg)) ∧
    asmOrg line st [] = .error (.diagnostic line .directiveArgumentError) ∧
    (∀ name more, isLabelName name = true →
      asmOrg line st (name :: more) = .error (.diagnostic line .directiveArgumentError)) ∧
    ∀ t more, (∀ c ∈ t, isDigitChar c = false ∧ c ∉ [',', '$', '%']) →
      asmOrg line st (t :: more) = .error (.diagnostic line .directiveArgumentError)

/-- R68, with the range of R74 (decision D14). Arguments with a comma, $ or %, and those that
begin with a digit and are no decimal number, are left to the model's choice (log entry 10) and
not named here. -/
def Obligations.ValEmitsOneWord : Prop :=
  ∀ (line : Nat) (st : AsmState),
    (st.cursor < 65535 →
      (∀ n < 65536, asmVal line st [decimalText n] = .ok { st with
        cursor := st.cursor + 1, items := st.items ++ [(st.cursor, .word (BitVec.ofNat 16 n))] }) ∧
      ∀ n > 0, n ≤ 32768 → asmVal line st ['-' :: decimalText n] = .ok { st with
        cursor := st.cursor + 1
        items := st.items ++ [(st.cursor, .word (BitVec.ofNat 16 (65536 - n)))] }) ∧
    (∀ n > 65535, asmVal line st [decimalText n] =
      .error (.diagnostic line .directiveArgumentError)) ∧
    (∀ n > 32768, asmVal line st ['-' :: decimalText n] =
      .error (.diagnostic line .directiveArgumentError)) ∧
    asmVal line st [] = .error (.diagnostic line .directiveArgumentError) ∧
    (∀ name more, isLabelName name = true →
      asmVal line st (name :: more) = .error (.diagnostic line .directiveArgumentError)) ∧
    ∀ t more, (∀ c ∈ t, isDigitChar c = false ∧ c ∉ [',', '$', '%']) →
      asmVal line st (t :: more) = .error (.diagnostic line .directiveArgumentError)
end

