-- ==== Sys2Proof/Laws/Word.lean ====
section
/-!
SUPPORT. What the wrapped arithmetic of Sys2Proof/Word.lean and Sys2Proof/Machine/Operands.lean gives
as a number.
-/

namespace Sys2Proof

theorem wrap16_toNat (v : Int) : ((wrap16 v).toNat : Int) = v % 65536 := by
  simp only [wrap16, BitVec.toNat_ofInt]; omega

@[simp] theorem wrap16_natCast_toNat (n : Nat) : (wrap16 (n : Int)).toNat = n % 65536 := by
  have := wrap16_toNat n; omega

@[simp] theorem wrap16_add_toNat (m n : Nat) :
    (wrap16 ((m : Int) + (n : Int))).toNat = (m + n) % 65536 := by
  have := wrap16_toNat ((m : Int) + n); omega

@[simp] theorem wrap16_add_one_toNat (m : Nat) :
    (wrap16 ((m : Int) + 1)).toNat = (m + 1) % 65536 := wrap16_add_toNat m 1

@[simp] theorem wrap16_add_ofNat_toNat (m n : Nat) :
    (wrap16 ((m : Int) + no_index (OfNat.ofNat n : Int))).toNat = (m + n) % 65536 := wrap16_add_toNat m n

/-- Wrapping once at the end is wrapping at every sum. -/
theorem wrap16_wrap16_add (v w : Int) : wrap16 ((wrap16 v).toNat + w) = wrap16 (v + w) := by
  have h := wrap16_toNat v
  have h1 := wrap16_toNat ((wrap16 v).toNat + w)
  have h2 := wrap16_toNat (v + w)
  rw [← BitVec.toNat_inj]; omega

@[simp] theorem not16_toNat (v : Word) : (not16 v).toNat = 65535 - v.toNat := by
  simp [not16, BitVec.toNat_not]

theorem word_lt (v : Word) : v.toNat < 65536 := v.isLt

namespace Machine

@[simp] theorem aluAdd_toNat (x y : Word) : (aluAdd x y).toNat = (x.toNat + y.toNat) % 65536 :=
  wrap16_add_toNat _ _

theorem aluSub_toNat (x y : Word) :
    ((aluSub x y).toNat : Int) = ((x.toNat : Int) - y.toNat) % 65536 := wrap16_toNat _

theorem aluNeg_toNat (x : Word) : (aluNeg x).toNat = (65536 - x.toNat) % 65536 := by
  have h := wrap16_toNat (0 - (x.toNat : Int)); have := word_lt x; unfold aluNeg; omega

@[simp] theorem aluNot_toNat (x : Word) : (aluNot x).toNat = 65535 - x.toNat := not16_toNat x

@[simp] theorem aluNand_toNat (x y : Word) :
    (aluNand x y).toNat = 65535 - (x &&& y).toNat := not16_toNat _

@[simp] theorem effAddr_toNat (s : State) (a : Reg) (nw : Word) :
    (s.effAddr a nw).toNat = ((s.readReg a).toNat + nw.toNat) % 65536 := wrap16_add_toNat _ _

end Machine
end Sys2Proof
end

