-- ==== Sys2Proof/Laws/Assembler.lean ====
section
/-!
SUPPORT. Cutting a text at separators, reading back the decimal text of a number, what a directive's
argument can give, what emitting words leaves, and assembling a text in two parts.
-/

namespace Sys2Proof.Machine

theorem splitAtChars_ne_nil (sep : Char → Bool) (cs : List Char) : splitAtChars sep cs ≠ [] := by
  cases cs with
  | nil => simp [splitAtChars]
  | cons c rest => simp only [splitAtChars]; split <;> [simp; skip]; split <;> simp

/-- A separator cuts a text into the pieces before it and the pieces after it. -/
theorem splitAtChars_append (sep : Char → Bool) (c : Char) (hc : sep c = true) (xs ys : List Char) :
    splitAtChars sep (xs ++ c :: ys) = splitAtChars sep xs ++ splitAtChars sep ys := by
  induction xs with
  | nil => simp [splitAtChars, hc]
  | cons x xs ih =>
    simp only [List.cons_append, splitAtChars, ih]
    split
    · rfl
    · cases h : splitAtChars sep xs with
      | nil => exact absurd h (splitAtChars_ne_nil sep xs)
      | cons t ts => rfl

/-- A text without a separator is one piece. -/
theorem splitAtChars_none (sep : Char → Bool) (xs : List Char) (h : ∀ c ∈ xs, sep c = false) :
    splitAtChars sep xs = [xs] := by
  induction xs with
  | nil => rfl
  | cons x xs ih => simp [splitAtChars, h x (by simp), ih fun c hc => h c (by simp [hc])]

theorem parseDigits_append (xs ys : List Char) (acc : Nat) :
    parseDigits acc (xs ++ ys) = (parseDigits acc xs).bind fun a => parseDigits a ys := by
  induction xs generalizing acc with
  | nil => rfl
  | cons x xs ih => simp only [List.cons_append, parseDigits]; split <;> simp [ih]

theorem digitChar_digit :
    ∀ n < 10, isDigitChar (Nat.digitChar n) = true ∧ (Nat.digitChar n).toNat - 48 = n := by decide

theorem decimalText_isDigit (n : Nat) : ∀ c ∈ decimalText n, isDigitChar c = true := fun c h => by
  have hd := Nat.isDigit_of_mem_toDigits (by decide) (by decide) h
  simp only [Char.isDigit, Bool.and_eq_true, decide_eq_true_eq] at hd
  simp only [isDigitChar, Bool.and_eq_true, decide_eq_true_eq]
  exact hd

theorem decimalText_ne_nil (n : Nat) : decimalText n ≠ [] := by
  unfold decimalText
  by_cases h : n < 10
  · simp [Nat.toDigits_of_lt_base h]
  · simp [Nat.toDigits_of_base_le (by decide) (not_lt.mp h)]

/-- The digits of a number, read back, are the number. -/
theorem parseDigits_decimalText (n : Nat) : parseDigits 0 (decimalText n) = some n := by
  induction n using Nat.strong_induction_on with
  | _ n ih =>
    unfold decimalText at *
    by_cases h : n < 10
    · obtain ⟨h1, h2⟩ := digitChar_digit n h
      simp [Nat.toDigits_of_lt_base h, parseDigits, h1, h2]
    · obtain ⟨h1, h2⟩ := digitChar_digit (n % 10) (Nat.mod_lt _ (by decide))
      rw [Nat.toDigits_of_base_le (by decide) (by omega), parseDigits_append, ih _ (by omega)]
      simp only [Option.bind_some, parseDigits, h1, h2, if_true]
      congr 1; omega

/-- The decimal text of a number is a number to the assembler, the same one. -/
theorem parseNumber_decimalText (n : Nat) : parseNumber (decimalText n) = some (n : Int) := by
  have hp := parseDigits_decimalText n
  have hd := decimalText_isDigit n
  rcases h : decimalText n with _ | ⟨c, _ | ⟨c', rest⟩⟩ <;> rw [h] at hp hd
  · exact absurd h (decimalText_ne_nil n)
  · have hc := hd c (by simp)
    have h48 : 48 ≤ c.toNat := by
      simp only [isDigitChar, Bool.and_eq_true, decide_eq_true_eq] at hc; exact hc.1
    simp only [parseDigits, hc, if_true, Option.some.injEq] at hp
    simp only [parseNumber, hc, if_true, Option.some.injEq]
    omega
  · have hc : (c == '-') = false := by
      have := hd c (by simp)
      rw [beq_eq_false_iff_ne]; rintro rfl; revert this; decide
    simp [parseNumber, hc, hp]

/-- A word's own number is a literal that stands for it. -/
theorem literalWord_toNat (w : Word) : literalWord (w.toNat : Int) = some w := by
  have h := word_lt w
  rw [literalWord, if_pos (by omega)]
  congr 1
  rw [← BitVec.toNat_inj, wrap16_natCast_toNat, Nat.mod_eq_of_lt h]

/-- The decimal text of a negative number. -/
theorem parseNumber_neg_decimalText (n : Nat) : parseNumber ('-' :: decimalText n) = some (-(n : Int)) := by
  have hp := parseDigits_decimalText n
  rcases h : decimalText n with _ | ⟨c, rest⟩
  · exact absurd h (decimalText_ne_nil n)
  · rw [h] at hp; simp [parseNumber, hp]

theorem isDigitChar_of_isLetterChar {c : Char} (h : isLetterChar c = true) : isDigitChar c = false := by
  simp only [isLetterChar, isDigitChar, Bool.or_eq_true, Bool.and_eq_true, decide_eq_true_eq,
    Bool.and_eq_false_iff, decide_eq_false_iff_not] at *
  omega

/-- A label name is no number to a directive (30 R67, R68). -/
theorem directiveNumber_labelName {name : List Char} (h : isLabelName name = true) (line : Nat)
    (more : List (List Char)) :
    directiveNumber line (name :: more) = .error (.diagnostic line .directiveArgumentError) := by
  match name, h with
  | c :: rest, h =>
    simp only [isLabelName, Bool.and_eq_true] at h
    have hd := isDigitChar_of_isLetterChar h.1
    have hne (x : Char) (hx : isLetterChar x = false) : c ≠ x := by
      rintro rfl; rw [h.1] at hx; cases hx
    have hs := hne '-' (by decide)
    have h1 : parseNumber (c :: rest) = none := by
      cases rest <;> simp [parseNumber, parseDigits, hd, hs]
    have h2 : openDirectiveArgument (c :: rest) = false := by
      simp [openDirectiveArgument, isNumeral, hd, hs, hne ',' (by decide), hne '+' (by decide),
        hne '$' (by decide), hne '%' (by decide)]
    simp [directiveNumber, h1, h2]

/-- Nor is a text with no digit, no comma and no mark of a base (30 R67, R68). -/
theorem directiveNumber_noDigit {t : List Char}
    (h : ∀ c ∈ t, isDigitChar c = false ∧ c ∉ [',', '$', '%']) (line : Nat)
    (more : List (List Char)) :
    directiveNumber line (t :: more) = .error (.diagnostic line .directiveArgumentError) := by
  have h1 : parseNumber t = none := by
    match t, h with
    | [], _ => rfl
    | [c], h => simp [parseNumber, (h c (by simp)).1]
    | c :: x :: rest, h => simp [parseNumber, parseDigits, (h c (by simp)).1, (h x (by simp)).1]
  have h2 : openDirectiveArgument t = false := by
    have htw : t.takeWhile (fun c => c != ',') = t := by
      rw [List.takeWhile_eq_self_iff]
      intro c hc
      have := (h c hc).2
      simp at this
      simp [this.1]
    simp only [openDirectiveArgument, htw, Bool.or_eq_false_iff]
    constructor
    · cases t with
      | nil => rfl
      | cons c t =>
        have := (h c (by simp)).2
        simp at this
        simp [this.1]
    · unfold isNumeral
      split
      · rfl
      · rename_i c rest heq
        have hc : c ∈ List.dropWhile (fun c => c == '+' || c == '-') t := by rw [heq]; simp
        have := h c ((List.dropWhile_suffix _).subset hc)
        simp at this
        simp [this]
  simp [directiveNumber, h1, h2]

/-- Emitting words appends them, from the cursor on, and defines no label. -/
theorem emit_items {line : Nat} {st st' : AsmState} {es : List Emitted} (h : emit line st es = .ok st') :
    st'.labels = st.labels ∧ ∃ r, st'.items = st.items ++ r ∧ r.map Prod.snd = es ∧
      ∀ k (hk : k < r.length), (r[k]).1 = st.cursor + k := by
  induction es generalizing st with
  | nil => cases h; exact ⟨rfl, [], by simp⟩
  | cons e es ih =>
    simp only [emit] at h
    split at h
    · obtain ⟨h0, r, h1, h2, h3⟩ := ih h
      refine ⟨h0, (st.cursor, e) :: r, by simp [h1], by simp [h2], fun k hk => ?_⟩
      cases k with
      | zero => rfl
      | succ k => simp at hk; simp [h3 k hk]; omega
    · cases h

/-- Lines that end no program text are assembled before the rest of the text. -/
theorem asmLines_append (pre rest : List (List Char)) (h : ∀ l ∈ pre, cleanLine l ≠ []) (n : Nat)
    (st : AsmState) :
    asmLines n st (pre ++ rest) =
      match asmLines n st pre with
      | .error e => .error e
      | .ok t => asmLines (n + pre.length) t rest := by
  induction pre generalizing n st with
  | nil => simp [asmLines]
  | cons l pre ih =>
    simp only [List.cons_append, asmLines, if_neg (h l (by simp))]
    cases asmLine n st (cleanLine l) with
    | error e => rfl
    | ok t =>
      simp only [ih fun x hx => h x (by simp [hx]), List.length_cons,
        show n + 1 + pre.length = n + (pre.length + 1) by omega]

/-- Only the lines before the first that ends the program text are assembled (30 R65). -/
theorem asmLines_takeWhile (ls : List (List Char)) (n : Nat) (st : AsmState) :
    asmLines n st (ls.takeWhile fun l => decide (cleanLine l ≠ [])) = asmLines n st ls := by
  induction ls generalizing n st with
  | nil => rfl
  | cons l ls ih =>
    by_cases hl : cleanLine l = []
    · simp [asmLines, hl]
    · simp only [List.takeWhile_cons, hl, decide_true, if_true, ne_eq, not_false_eq_true, asmLines,
        if_false]
      split <;> [rfl; exact ih _ _]

end Sys2Proof.Machine
end

