-- ==== Sys2Proof/Laws/Decode.lean ====
section
/-!
SUPPORT. The fields of an instruction word, read and put together.
-/

namespace Sys2Proof.Machine

@[simp] theorem opOfNumber_opNumber (o : Op) : opOfNumber (opNumber o) = o := by cases o <;> rfl

theorem opNumber_lt (o : Op) : opNumber o < 32 := by cases o <;> decide

theorem opNumber_opOfNumber : ∀ n < 32, opNumber (opOfNumber n) = n := by decide

theorem opOf_eq (w : Word) : opOf w = opOfNumber (w.toNat % 32) := by simp [opOf, bits, opLo, opWidth]

@[simp] theorem opNumber_opOf (w : Word) : opNumber (opOf w) = w.toNat % 32 := by
  rw [opOf_eq]; exact opNumber_opOfNumber _ (Nat.mod_lt _ (by decide))

theorem fieldD_eq (w : Word) : fieldD w = Fin.ofNat 8 (w.toNat / 32) := by
  simp [fieldD, regField, bits, destLo, regWidth, Fin.ext_iff]

theorem fieldA_eq (w : Word) : fieldA w = Fin.ofNat 8 (w.toNat / 256) := by
  simp [fieldA, regField, bits, srcALo, regWidth, Fin.ext_iff]

theorem fieldB_eq (w : Word) : fieldB w = Fin.ofNat 8 (w.toNat / 2048) := by
  simp [fieldB, regField, bits, srcBLo, regWidth, Fin.ext_iff]

/-- A canonical word as a number: each used field at its weight, the rest 0. -/
theorem canonicalWord_toNat (o : Op) (d a b : Reg) :
    (canonicalWord o d a b).toNat = opNumber o + (if opUses o .dest then 32 * d.val else 0)
      + (if opUses o .srcA then 256 * a.val else 0)
      + (if opUses o .srcB then 2048 * b.val else 0) := by
  have h := opNumber_lt o
  simp only [canonicalWord, opLo, roleWeight, destLo, srcALo, srcBLo, BitVec.toNat_ofNat]
  split_ifs <;> omega

@[simp] theorem opOf_canonicalWord (o : Op) (d a b : Reg) : opOf (canonicalWord o d a b) = o := by
  have h : (canonicalWord o d a b).toNat % 32 = opNumber o := by
    have := opNumber_lt o
    rw [canonicalWord_toNat]; split_ifs <;> omega
  rw [opOf_eq, h, opOfNumber_opNumber]

@[simp] theorem fieldD_canonicalWord (o : Op) (d a b : Reg) :
    fieldD (canonicalWord o d a b) = if opUses o .dest then d else 0 := by
  have := opNumber_lt o
  rw [fieldD_eq, canonicalWord_toNat, Fin.ext_iff]
  split_ifs <;> simp only [Fin.val_ofNat, Fin.val_zero] <;> omega

@[simp] theorem fieldA_canonicalWord (o : Op) (d a b : Reg) :
    fieldA (canonicalWord o d a b) = if opUses o .srcA then a else 0 := by
  have := opNumber_lt o
  rw [fieldA_eq, canonicalWord_toNat, Fin.ext_iff]
  split_ifs <;> simp only [Fin.val_ofNat, Fin.val_zero] <;> omega

@[simp] theorem fieldB_canonicalWord (o : Op) (d a b : Reg) :
    fieldB (canonicalWord o d a b) = if opUses o .srcB then b else 0 := by
  have := opNumber_lt o
  rw [fieldB_eq, canonicalWord_toNat, Fin.ext_iff]
  split_ifs <;> simp only [Fin.val_ofNat, Fin.val_zero] <;> omega

theorem canonicalWord_lt (o : Op) (d a b : Reg) : (canonicalWord o d a b).toNat < 16384 := by
  have := opNumber_lt o
  rw [canonicalWord_toNat]; split_ifs <;> omega

/-- The word an assembler or encoder builds for an operation is a canonical one. -/
theorem canonical_canonicalWord (o : Op) (d a b : Reg) : canonical (canonicalWord o d a b) = true := by
  have h := canonicalWord_lt o d a b
  simp only [canonical, spareBitsClear, unusedFieldsClear, opOf_canonicalWord, fieldD_canonicalWord,
    fieldA_canonicalWord, fieldB_canonicalWord, bits, Bool.and_eq_true, Bool.or_eq_true, beq_iff_eq]
  refine ⟨by omega, ⟨?_, ?_⟩, ?_⟩ <;> split_ifs <;> simp_all

/-- A canonical word is the word its operation and fields build. -/
theorem canonicalWord_of_canonical {w : Word} (h : canonical w = true) :
    w = canonicalWord (opOf w) (fieldD w) (fieldA w) (fieldB w) := by
  simp only [canonical, spareBitsClear, unusedFieldsClear, bits, Bool.and_eq_true, Bool.or_eq_true,
    beq_iff_eq] at h
  obtain ⟨hs, ⟨hd, ha⟩, hb⟩ := h
  rw [← BitVec.toNat_inj, canonicalWord_toNat, opNumber_opOf]
  simp only [fieldD_eq, fieldA_eq, fieldB_eq, Fin.ext_iff, Fin.val_ofNat, Fin.val_zero] at hd ha hb ⊢
  have := w.isLt
  split_ifs <;> simp_all <;> omega

end Sys2Proof.Machine

namespace Sys2Proof

open Sys2Proof.Machine

theorem decodeWords_two {w : Word} (h : opNextWords (opOf w) = 1) (nw : Word) (rest : List Word) :
    decodeWords (w :: nw :: rest) = .ok (decode w nw, rest) := by
  simp [decodeWords, h]

theorem decodeWords_one {w : Word} (h : opNextWords (opOf w) = 0) (rest : List Word) :
    decodeWords (w :: rest) = .ok (decode w 0, rest) := by
  simp [decodeWords, h]

/-- An operation that takes no next word ignores the word that follows. -/
theorem decode_next {w : Word} (h : opNextWords (opOf w) = 0) (nw nw' : Word) :
    decode w nw = decode w nw' := by
  unfold decode
  cases hw : opOf w <;> rw [hw] at h <;> first | rfl | exact absurd h (by decide)

end Sys2Proof
end

