-- ==== Sys2Proof/Laws/Memory.lean ====
section
/-!
SUPPORT. The memory: reading after writing, the canonical form kept by every operation, and equality of
canonical memories that read alike.
-/

namespace Sys2Proof.Machine

theorem Memory.lookup_insert (m : Memory) (a b : Nat) (v : Word) :
    (m.insert a v).lookup b = if b = a then v else m.lookup b := by
  induction m with
  | nil => simp [Memory.insert, Memory.lookup, eq_comm]
  | cons c m ih =>
    obtain ⟨k, w⟩ := c
    simp only [Memory.insert]
    split_ifs <;> simp only [Memory.lookup, ih] <;> split_ifs <;> first | rfl | omega

theorem Memory.lookup_erase (m : Memory) (a b : Nat) :
    (m.erase a).lookup b = if b = a then Config.unwrittenWord else m.lookup b := by
  induction m with
  | nil => simp [Memory.erase, Memory.lookup]
  | cons c m ih =>
    obtain ⟨k, w⟩ := c
    simp only [Memory.erase] at ih
    simp only [Memory.erase, List.filter_cons, bne_iff_ne]
    split_ifs with h1 h2 <;> simp only [Memory.lookup, ih] <;> split_ifs <;> first | rfl | omega

/-- A read after a write: the word written at its address, what was there before at every other. -/
theorem Memory.read_write (m : Memory) (a v b : Word) :
    (m.write a v).read b = if b = a then v else m.read b := by
  simp only [Memory.write, Memory.read, ← BitVec.toNat_inj]
  split_ifs with h <;> simp_all [Memory.lookup_insert, Memory.lookup_erase]

theorem Memory.wfFrom_mono {m : Memory} {lo lo' : Nat} (h : lo' ≤ lo) :
    Memory.wfFrom lo m = true → Memory.wfFrom lo' m = true := by
  cases m with
  | nil => simp [Memory.wfFrom]
  | cons c m =>
    simp only [Memory.wfFrom, Bool.and_eq_true, decide_eq_true_eq]
    exact fun hm => ⟨⟨⟨h.trans hm.1.1.1, hm.1.1.2⟩, hm.1.2⟩, hm.2⟩

theorem Memory.wfFrom_insert {m : Memory} {lo a : Nat} {v : Word} (hm : Memory.wfFrom lo m = true)
    (hlo : lo ≤ a) (ha : a < Config.memWords) (hv : v ≠ Config.unwrittenWord) :
    Memory.wfFrom lo (m.insert a v) = true := by
  induction m generalizing lo with
  | nil => simp [Memory.insert, Memory.wfFrom, hlo, ha, hv]
  | cons c m ih =>
    obtain ⟨k, w⟩ := c
    simp only [Memory.wfFrom, Bool.and_eq_true, decide_eq_true_eq] at hm
    obtain ⟨⟨⟨h1, h2⟩, h3⟩, h4⟩ := hm
    simp only [Memory.insert]
    split_ifs with h5 h6
    · simp [Memory.wfFrom, hlo, ha, hv, h2, h4, bne_iff_ne.mp h3]; omega
    · subst h6; simp [Memory.wfFrom, hlo, ha, hv, h4]
    · simp [Memory.wfFrom, h1, h2, bne_iff_ne.mp h3]
      exact ih h4 (by omega)

theorem Memory.wfFrom_erase {m : Memory} {lo a : Nat} (hm : Memory.wfFrom lo m = true) :
    Memory.wfFrom lo (m.erase a) = true := by
  induction m generalizing lo with
  | nil => simp [Memory.erase, Memory.wfFrom]
  | cons c m ih =>
    obtain ⟨k, w⟩ := c
    simp only [Memory.wfFrom, Bool.and_eq_true, decide_eq_true_eq] at hm
    obtain ⟨⟨⟨h1, h2⟩, h3⟩, h4⟩ := hm
    have h := ih h4
    simp only [Memory.erase, List.filter_cons, bne_iff_ne] at h ⊢
    split_ifs
    · simp only [Memory.wfFrom, Bool.and_eq_true, decide_eq_true_eq]
      exact ⟨⟨⟨h1, h2⟩, h3⟩, h⟩
    · exact Memory.wfFrom_mono (by omega) h

/-- A write keeps the canonical form. -/
theorem Memory.wf_write {m : Memory} (hm : m.wf = true) (a v : Word) : (m.write a v).wf = true := by
  unfold Memory.write
  split_ifs with h
  · exact Memory.wfFrom_erase hm
  · exact Memory.wfFrom_insert hm (Nat.zero_le _) a.isLt h

/-- Writing an image over a memory keeps the canonical form. -/
theorem Memory.wf_overwrite {m : Memory} (hm : m.wf = true) (image : Image) :
    (m.overwrite image).wf = true := by
  induction image generalizing m with
  | nil => exact hm
  | cons c rest ih => exact ih (Memory.wf_write hm _ _)

/-- Below its first address a canonical memory reads as unlisted. -/
theorem Memory.lookup_of_lt {m : Memory} {lo a : Nat} (hm : Memory.wfFrom lo m = true) (h : a < lo) :
    m.lookup a = Config.unwrittenWord := by
  induction m generalizing lo with
  | nil => rfl
  | cons c m ih =>
    obtain ⟨k, w⟩ := c
    simp only [Memory.wfFrom, Bool.and_eq_true, decide_eq_true_eq] at hm
    simp only [Memory.lookup]
    rw [if_neg (by omega)]
    exact ih hm.2 (by omega)

theorem Memory.reset_wf : State.reset.mem.wf = true := rfl

end Sys2Proof.Machine
end

