-- ==== Sys2Proof/Laws/PerInstr.lean ====
section
/-!
SUPPORT. A fact about every instruction as syntax, one lemma for each constructor: its encoding is
well-formed, has the length its opcode tells, and starts with a word that holds its opcode and lies
below 16384 (spec/30_encoding.md R48, R59).
-/

namespace Sys2Proof.Laws

open Sys2Proof.Machine

/-- The encoding of `i` is canonical and of the right length. -/
def EncodeCanonical.Statement (i : Instr) : Prop :=
  wellFormed (encode i) = true ∧ (encode i).length = opWords i.op ∧
    opOf (encodeWord i) = i.op ∧ (encodeWord i).toNat < 16384

theorem EncodeCanonical.of_word {i : Instr} {d a b : Reg} (hw : encodeWord i = canonicalWord i.op d a b)
    (hn : (encodeNext i).length = opNextWords i.op) : EncodeCanonical.Statement i := by
  refine ⟨?_, ?_, ?_, ?_⟩
  · simp [wellFormed, rightLength, encode, hw, hn, canonical_canonicalWord]
  · simp [encode, opWords, hn, Nat.add_comm]
  · rw [hw, opOf_canonicalWord]
  · rw [hw]; exact canonicalWord_lt _ _ _ _

theorem EncodeCanonical.nop : EncodeCanonical.Statement .nop :=
  EncodeCanonical.of_word (d := 0) (a := 0) (b := 0) rfl rfl

theorem EncodeCanonical.mv (d : Reg) (a : Reg) : EncodeCanonical.Statement (.mv d a) :=
  EncodeCanonical.of_word (d := d) (a := a) (b := 0) rfl rfl

theorem EncodeCanonical.li (d : Reg) (nw : Word) : EncodeCanonical.Statement (.li d nw) :=
  EncodeCanonical.of_word (d := d) (a := 0) (b := 0) rfl rfl

theorem EncodeCanonical.ld (d : Reg) (nw : Word) : EncodeCanonical.Statement (.ld d nw) :=
  EncodeCanonical.of_word (d := d) (a := 0) (b := 0) rfl rfl

theorem EncodeCanonical.ldind (d : Reg) (a : Reg) : EncodeCanonical.Statement (.ldind d a) :=
  EncodeCanonical.of_word (d := d) (a := a) (b := 0) rfl rfl

theorem EncodeCanonical.ldio (d : Reg) (a : Reg) (nw : Word) : EncodeCanonical.Statement (.ldio d a nw) :=
  EncodeCanonical.of_word (d := d) (a := a) (b := 0) rfl rfl

theorem EncodeCanonical.stio (a : Reg) (b : Reg) (nw : Word) : EncodeCanonical.Statement (.stio a b nw) :=
  EncodeCanonical.of_word (d := 0) (a := a) (b := b) rfl rfl

theorem EncodeCanonical.add (d : Reg) (a : Reg) (b : Reg) : EncodeCanonical.Statement (.add d a b) :=
  EncodeCanonical.of_word (d := d) (a := a) (b := b) rfl rfl

theorem EncodeCanonical.sub (d : Reg) (a : Reg) (b : Reg) : EncodeCanonical.Statement (.sub d a b) :=
  EncodeCanonical.of_word (d := d) (a := a) (b := b) rfl rfl

theorem EncodeCanonical.neg (d : Reg) (a : Reg) : EncodeCanonical.Statement (.neg d a) :=
  EncodeCanonical.of_word (d := d) (a := a) (b := 0) rfl rfl

theorem EncodeCanonical.xor (d : Reg) (a : Reg) (b : Reg) : EncodeCanonical.Statement (.xor d a b) :=
  EncodeCanonical.of_word (d := d) (a := a) (b := b) rfl rfl

theorem EncodeCanonical.nand (d : Reg) (a : Reg) (b : Reg) : EncodeCanonical.Statement (.nand d a b) :=
  EncodeCanonical.of_word (d := d) (a := a) (b := b) rfl rfl

theorem EncodeCanonical.and (d : Reg) (a : Reg) (b : Reg) : EncodeCanonical.Statement (.and d a b) :=
  EncodeCanonical.of_word (d := d) (a := a) (b := b) rfl rfl

theorem EncodeCanonical.or (d : Reg) (a : Reg) (b : Reg) : EncodeCanonical.Statement (.or d a b) :=
  EncodeCanonical.of_word (d := d) (a := a) (b := b) rfl rfl

theorem EncodeCanonical.not (d : Reg) (a : Reg) : EncodeCanonical.Statement (.not d a) :=
  EncodeCanonical.of_word (d := d) (a := a) (b := 0) rfl rfl

theorem EncodeCanonical.j (a : Reg) : EncodeCanonical.Statement (.j a) :=
  EncodeCanonical.of_word (d := 0) (a := a) (b := 0) rfl rfl

theorem EncodeCanonical.jnz (a : Reg) (nw : Word) : EncodeCanonical.Statement (.jnz a nw) :=
  EncodeCanonical.of_word (d := 0) (a := a) (b := 0) rfl rfl

theorem EncodeCanonical.jimm (nw : Word) : EncodeCanonical.Statement (.jimm nw) :=
  EncodeCanonical.of_word (d := 0) (a := 0) (b := 0) rfl rfl

theorem EncodeCanonical.addi (d : Reg) (a : Reg) (nw : Word) : EncodeCanonical.Statement (.addi d a nw) :=
  EncodeCanonical.of_word (d := d) (a := a) (b := 0) rfl rfl

theorem EncodeCanonical.st (nw : Word) (a : Reg) : EncodeCanonical.Statement (.st nw a) :=
  EncodeCanonical.of_word (d := 0) (a := a) (b := 0) rfl rfl

theorem EncodeCanonical.jz (a : Reg) (nw : Word) : EncodeCanonical.Statement (.jz a nw) :=
  EncodeCanonical.of_word (d := 0) (a := a) (b := 0) rfl rfl

theorem EncodeCanonical.jn (a : Reg) (nw : Word) : EncodeCanonical.Statement (.jn a nw) :=
  EncodeCanonical.of_word (d := 0) (a := a) (b := 0) rfl rfl

theorem EncodeCanonical.invalid22 : EncodeCanonical.Statement .invalid22 :=
  EncodeCanonical.of_word (d := 0) (a := 0) (b := 0) rfl rfl

theorem EncodeCanonical.invalid23 : EncodeCanonical.Statement .invalid23 :=
  EncodeCanonical.of_word (d := 0) (a := 0) (b := 0) rfl rfl

theorem EncodeCanonical.invalid24 : EncodeCanonical.Statement .invalid24 :=
  EncodeCanonical.of_word (d := 0) (a := 0) (b := 0) rfl rfl

theorem EncodeCanonical.invalid25 : EncodeCanonical.Statement .invalid25 :=
  EncodeCanonical.of_word (d := 0) (a := 0) (b := 0) rfl rfl

theorem EncodeCanonical.invalid26 : EncodeCanonical.Statement .invalid26 :=
  EncodeCanonical.of_word (d := 0) (a := 0) (b := 0) rfl rfl

theorem EncodeCanonical.invalid27 : EncodeCanonical.Statement .invalid27 :=
  EncodeCanonical.of_word (d := 0) (a := 0) (b := 0) rfl rfl

theorem EncodeCanonical.invalid28 : EncodeCanonical.Statement .invalid28 :=
  EncodeCanonical.of_word (d := 0) (a := 0) (b := 0) rfl rfl

theorem EncodeCanonical.invalid29 : EncodeCanonical.Statement .invalid29 :=
  EncodeCanonical.of_word (d := 0) (a := 0) (b := 0) rfl rfl

theorem EncodeCanonical.invalid30 : EncodeCanonical.Statement .invalid30 :=
  EncodeCanonical.of_word (d := 0) (a := 0) (b := 0) rfl rfl

theorem EncodeCanonical.invalid31 : EncodeCanonical.Statement .invalid31 :=
  EncodeCanonical.of_word (d := 0) (a := 0) (b := 0) rfl rfl

end Sys2Proof.Laws
end

