-- ==== Sys2Proof/Laws/State.lean ====
section
/-!
SUPPORT. Every field and every reading of the state after every update, so that no later proof unfolds
a record update.
-/

namespace Sys2Proof.Machine

variable (s : State) (d r : Reg) (a b v : Word) (n : Nat)

@[simp] theorem writeReg_pc : (s.writeReg d v).pc = s.pc := rfl
@[simp] theorem writeReg_mem : (s.writeReg d v).mem = s.mem := rfl
@[simp] theorem writeReg_readMem : (s.writeReg d v).readMem a = s.readMem a := rfl

theorem writeReg_readReg : (s.writeReg d v).readReg r = if r = d then v else s.readReg r := by
  simp only [State.readReg, State.writeReg, Vector.get_eq_getElem, Vector.getElem_set, Fin.ext_iff,
    eq_comm]

@[simp] theorem writeReg_readReg_same : (s.writeReg d v).readReg d = v := by
  simp [writeReg_readReg]

@[simp] theorem writeMem_pc : (s.writeMem a v).pc = s.pc := rfl
@[simp] theorem writeMem_regs : (s.writeMem a v).regs = s.regs := rfl
@[simp] theorem writeMem_mem : (s.writeMem a v).mem = s.mem.write a v := rfl
@[simp] theorem writeMem_readReg : (s.writeMem a v).readReg r = s.readReg r := rfl

theorem writeMem_readMem : (s.writeMem a v).readMem b = if b = a then v else s.readMem b :=
  Memory.read_write s.mem a v b

@[simp] theorem writeMem_readMem_same : (s.writeMem a v).readMem a = v := by simp [writeMem_readMem]

@[simp] theorem setPc_pc : (s.setPc v).pc = v := rfl
@[simp] theorem setPc_regs : (s.setPc v).regs = s.regs := rfl
@[simp] theorem setPc_mem : (s.setPc v).mem = s.mem := rfl
@[simp] theorem setPc_readReg : (s.setPc v).readReg r = s.readReg r := rfl
@[simp] theorem setPc_readMem : (s.setPc v).readMem a = s.readMem a := rfl

@[simp] theorem advance_pc : (s.advance n).pc = wrap16 (s.pc.toNat + n) := rfl
theorem advance_pc_toNat : (s.advance n).pc.toNat = (s.pc.toNat + n) % 65536 := wrap16_add_toNat _ _

@[simp] theorem advance_regs : (s.advance n).regs = s.regs := rfl
@[simp] theorem advance_mem : (s.advance n).mem = s.mem := rfl
@[simp] theorem advance_readReg : (s.advance n).readReg r = s.readReg r := rfl
@[simp] theorem advance_readMem : (s.advance n).readMem a = s.readMem a := rfl

variable (regs : Vector Word 8) (m : Memory) (image : Image)

@[simp] theorem init_pc : (State.init regs m).pc = 0 := rfl
@[simp] theorem init_regs : (State.init regs m).regs = regs := rfl
@[simp] theorem init_mem : (State.init regs m).mem = m := rfl

@[simp] theorem install_pc : (s.install image m).pc = s.pc := rfl
@[simp] theorem install_regs : (s.install image m).regs = s.regs := rfl
@[simp] theorem install_mem : (s.install image m).mem = m.overwrite image := rfl
@[simp] theorem install_readReg : (s.install image m).readReg r = s.readReg r := rfl

/-- Two states are equal when their PCs, registers and memories are. -/
theorem state_ext {s t : State} (hpc : s.pc = t.pc) (hr : ∀ r, s.readReg r = t.readReg r)
    (hm : s.mem = t.mem) : s = t := by
  obtain ⟨p, g, m⟩ := s
  obtain ⟨p', g', m'⟩ := t
  simp only at hpc hm
  subst hpc hm
  rw [show g = g' from Vector.ext fun i hi => hr ⟨i, hi⟩]

end Sys2Proof.Machine
end

