-- ==== Sys2Proof/Laws/Step.lean ====
section
/-!
SUPPORT. Everything one instruction can do, said once: the shapes an execution has, and what each
shape leaves unchanged. Proofs cite these instead of unfolding the meanings.
-/

namespace Sys2Proof.Machine

open Sys2Proof.Safety

/-- An execution is one of four: past the instruction; a register written; a word of memory written; a
jump. The register and the address are those of the spec's tables. -/
theorem exec_shape (i : Instr) (s : State) :
    (exec i s = finish s (opWords i.op) ∧ destReg i = none ∧ storeTarget i s = none) ∨
    (∃ d v, exec i s = finishReg s d v (opWords i.op) ∧ destReg i = some d ∧
      storeTarget i s = none ∧ isJump i = false) ∨
    (∃ a v, exec i s = finishMem s a v (opWords i.op) ∧ storeTarget i s = some a ∧
      destReg i = none ∧ isJump i = false) ∨
    (∃ target, exec i s = finishJump s target ∧ destReg i = none ∧ storeTarget i s = none ∧
      isJump i = true) := by
  cases i with
  | nop | invalid22 | invalid23 | invalid24 | invalid25 | invalid26 | invalid27 | invalid28
  | invalid29 | invalid30 | invalid31 => exact .inl ⟨rfl, rfl, rfl⟩
  | mv | li | ld | ldind | ldio | add | sub | neg | xor | nand | and | or | not | addi =>
    exact .inr (.inl ⟨_, _, rfl, rfl, rfl, rfl⟩)
  | stio | st => exact .inr (.inr (.inl ⟨_, _, rfl, rfl, rfl, rfl⟩))
  | j | jimm => exact .inr (.inr (.inr ⟨_, rfl, rfl, rfl, rfl⟩))
  | jnz a nw =>
    by_cases h : condNotZero (s.readReg a) = true
    · exact .inr (.inr (.inr ⟨nw, by simp [exec, execJnz, finishBranch, h], rfl, rfl, rfl⟩))
    · exact .inl ⟨by simp [exec, execJnz, finishBranch, h]; rfl, rfl, rfl⟩
  | jz a nw =>
    by_cases h : condZero (s.readReg a) = true
    · exact .inr (.inr (.inr ⟨nw, by simp [exec, execJz, finishBranch, h], rfl, rfl, rfl⟩))
    · exact .inl ⟨by simp [exec, execJz, finishBranch, h]; rfl, rfl, rfl⟩
  | jn a nw =>
    by_cases h : condNegative (s.readReg a) = true
    · exact .inr (.inr (.inr ⟨nw, by simp [exec, execJn, finishBranch, h], rfl, rfl, rfl⟩))
    · exact .inl ⟨by simp [exec, execJn, finishBranch, h]; rfl, rfl, rfl⟩

theorem finish_frame {s t : State} {n : Nat} (h : finish s n = .next t) :
    PcPast s t n ∧ OnlyPc s t := by
  cases h
  exact ⟨wrap16_add_toNat _ _, fun _ => rfl, fun _ => rfl⟩

theorem finishReg_frame {s t : State} {d : Reg} {v : Word} {n : Nat}
    (h : finishReg s d v n = .next t) : t.readReg d = v ∧ PcPast s t n ∧ OnlyReg s t d := by
  cases h
  exact ⟨by simp, wrap16_add_toNat _ _, fun r hr => by simp [writeReg_readReg, hr], fun _ => rfl⟩

theorem finishMem_frame {s t : State} {a v : Word} {n : Nat} (h : finishMem s a v n = .next t) :
    t.readMem a = v ∧ PcPast s t n ∧ OnlyMem s t a := by
  cases h
  exact ⟨by simp, wrap16_add_toNat _ _, fun b hb => by simp [writeMem_readMem, hb], fun _ => rfl⟩

theorem finishJump_frame {s t : State} {target : Word} (h : finishJump s target = .next t) :
    t.pc = target ∧ OnlyPc s t := by
  cases h
  exact ⟨rfl, fun _ => rfl, fun _ => rfl⟩

/-- The operation of the word at the PC, from its opcode value. -/
theorem opOf_of_opcodeAt {s : State} {o : Op} (h : opcodeAt s = opNumber o) :
    opOf (s.readMem s.pc) = o := by
  rw [opOf_eq, show (s.readMem s.pc).toNat % 32 = opNumber o from h, opOfNumber_opNumber]

/-- A step in the terms of claims: the word at the PC and the next word, decoded and executed. -/
theorem step_eq (s : State) : step s = exec (decode (s.readMem s.pc) (nwAt s)) s := rfl

end Sys2Proof.Machine
end

