-- ==== Sys2Proof/Tests/Slice0.lean ====
section
/-!
SUPPORT. Tests. Every expected result is from spec/: the vectors V1 to V69, S1 to S10 and A1 to A14 of
95_test_vectors.md, or an encoding written out by 30_encoding.md R49 and R51. Each vector is one cycle.
Then a witness for the hypotheses of every statement that has some.
-/

namespace Sys2Proof.Tests

open Sys2Proof.Machine Sys2Proof.Safety

/-- A state from its PC, the registers and the memory words that matter; the others are 0. -/
def atState (pc : Word) (regs : List (Reg × Word)) (mem : List (Word × Word)) : State :=
  mem.foldl (fun s c => s.writeMem c.1 c.2)
    (regs.foldl (fun s c => s.writeReg c.1 c.2) (State.reset.setPc pc))

/-- One cycle ends in a next state that passes `p`. -/
def cycle (s : State) (p : State → Bool) : Bool :=
  match step s with
  | .next t => p t
  | .fault _ => false
  | .refused _ => false

/-! Ill-formed words, one for each check of WellFormed.lean, and no words at all. -/

theorem test_wellFormed_spare_bit : spareBitsClear 0x4847 = false ∧ wellFormed [0x4847] = false := by decide
theorem test_wellFormed_unused_field :
    unusedFieldsClear 0x0D61 = false ∧ wellFormed [0x0D61] = false := by decide
theorem test_wellFormed_missing_next_word :
    rightLength 0x0002 [] = false ∧ wellFormed [0x0002] = false := by decide
theorem test_wellFormed_extra_word :
    rightLength 0x0847 [0] = false ∧ wellFormed [0x0847, 0] = false := by decide
theorem test_wellFormed_no_words : wellFormed [] = false := by decide
theorem test_wellFormed_accepts : wellFormed [0x0847] = true ∧ wellFormed [0x1806, 22] = true := by decide

/-! Every constructor's word, written out bit by bit as u, b, a, d, op (30 R49, R51), with a word after. -/

theorem test_decode_nop : decodeWords [0b00_000_000_000_00000, 7] = .ok (.nop, [7]) := by decide
theorem test_decode_mv : decodeWords [0b00_000_110_111_00001, 7] = .ok (.mv 7 6, [7]) := by decide
theorem test_decode_li : decodeWords [0b00_000_000_011_00010, 1003, 7] = .ok (.li 3 1003, [7]) := by decide
theorem test_decode_ld : decodeWords [0b00_000_000_110_00011, 1004, 7] = .ok (.ld 6 1004, [7]) := by decide
theorem test_decode_ldind : decodeWords [0b00_000_111_010_00100, 7] = .ok (.ldind 2 7, [7]) := by decide
theorem test_decode_ldio : decodeWords [0b00_000_110_101_00101, 1006, 7] = .ok (.ldio 5 6 1006, [7]) := by decide
theorem test_decode_stio : decodeWords [0b00_101_011_000_00110, 1007, 7] = .ok (.stio 3 5 1007, [7]) := by decide
theorem test_decode_st : decodeWords [0b00_000_001_000_10011, 1008, 7] = .ok (.st 1008 1, [7]) := by decide
theorem test_decode_add : decodeWords [0b00_010_110_111_00111, 7] = .ok (.add 7 6 2, [7]) := by decide
theorem test_decode_sub : decodeWords [0b00_101_100_011_01000, 7] = .ok (.sub 3 4 5, [7]) := by decide
theorem test_decode_neg : decodeWords [0b00_000_010_110_01001, 7] = .ok (.neg 6 2, [7]) := by decide
theorem test_decode_xor : decodeWords [0b00_001_111_010_01010, 7] = .ok (.xor 2 7 1, [7]) := by decide
theorem test_decode_nand : decodeWords [0b00_011_110_101_01011, 7] = .ok (.nand 5 6 3, [7]) := by decide
theorem test_decode_and : decodeWords [0b00_101_011_001_01100, 7] = .ok (.and 1 3 5, [7]) := by decide
theorem test_decode_or : decodeWords [0b00_111_001_100_01101, 7] = .ok (.or 4 1 7, [7]) := by decide
theorem test_decode_not : decodeWords [0b00_000_110_111_01110, 7] = .ok (.not 7 6, [7]) := by decide
theorem test_decode_addi : decodeWords [0b00_000_100_011_10010, 1017, 7] = .ok (.addi 3 4 1017, [7]) := by decide
theorem test_decode_j : decodeWords [0b00_000_010_000_01111, 7] = .ok (.j 2, [7]) := by decide
theorem test_decode_jnz : decodeWords [0b00_000_111_000_10000, 1019, 7] = .ok (.jnz 7 1019, [7]) := by decide
theorem test_decode_jimm : decodeWords [0b00_000_000_000_10001, 1020, 7] = .ok (.jimm 1020, [7]) := by decide
theorem test_decode_jz : decodeWords [0b00_000_011_000_10100, 1021, 7] = .ok (.jz 3 1021, [7]) := by decide
theorem test_decode_jn : decodeWords [0b00_000_001_000_10101, 1022, 7] = .ok (.jn 1 1022, [7]) := by decide
theorem test_decode_invalid22 : decodeWords [0b00_000_000_000_10110, 7] = .ok (.invalid22, [7]) := by decide
theorem test_decode_invalid23 : decodeWords [0b00_000_000_000_10111, 7] = .ok (.invalid23, [7]) := by decide
theorem test_decode_invalid24 : decodeWords [0b00_000_000_000_11000, 7] = .ok (.invalid24, [7]) := by decide
theorem test_decode_invalid25 : decodeWords [0b00_000_000_000_11001, 7] = .ok (.invalid25, [7]) := by decide
theorem test_decode_invalid26 : decodeWords [0b00_000_000_000_11010, 7] = .ok (.invalid26, [7]) := by decide
theorem test_decode_invalid27 : decodeWords [0b00_000_000_000_11011, 7] = .ok (.invalid27, [7]) := by decide
theorem test_decode_invalid28 : decodeWords [0b00_000_000_000_11100, 7] = .ok (.invalid28, [7]) := by decide
theorem test_decode_invalid29 : decodeWords [0b00_000_000_000_11101, 7] = .ok (.invalid29, [7]) := by decide
theorem test_decode_invalid30 : decodeWords [0b00_000_000_000_11110, 7] = .ok (.invalid30, [7]) := by decide
theorem test_decode_invalid31 : decodeWords [0b00_000_000_000_11111, 7] = .ok (.invalid31, [7]) := by decide

theorem test_decode_truncated : decodeWords [0x0002] = .error (.noNextWord .li) := by decide
theorem test_decode_nothing : decodeWords [] = .error .noInstructionWord := by decide
theorem test_tableWord : decodeTableWord 16 0x0847 = some (.add 2 0 1) ∧
    decodeTableWord 16 2 = some (.li 0 0) ∧ decodeTableWord 32 0x03E80042 = some (.li 2 1000) := by decide
theorem test_placed : (State.reset.withFetchWord 32 0x03E80042).mem = [(0, 0x0042), (1, 1000)] ∧
    cycle (State.reset.withFetchWord 32 0x03E80042) (fun t => t.readReg 2 == 1000) = true := by decide

/-! Single-cycle vectors of 95_test_vectors.md section 2. -/

/-- V2 -/
theorem test_nop_V2 :
    cycle (atState 65535 [] [(65535, 0x0000)]) (fun t => t.pc == 0) = true := by decide

/-- V3 -/
theorem test_nop_V3 :
    cycle (atState 3 [] [(3, 0xFFE0)]) (fun t => t.pc == 4) = true := by decide

/-- V4 -/
theorem test_mv_V4 :
    cycle (atState 0 [(5, 48879)] [(0, 0x0561)]) (fun t => t.pc == 1 && t.readReg 3 == 48879) = true := by decide

/-- V5 -/
theorem test_mv_V5 :
    cycle (atState 0 [(5, 48879)] [(0, 0xFD61)]) (fun t => t.pc == 1 && t.readReg 3 == 48879) = true := by decide

/-- V7 -/
theorem test_li_V7 :
    cycle (atState 0 [] [(0, 0x0042), (1, 0x03E8)]) (fun t => t.pc == 2 && t.readReg 2 == 1000) = true := by decide

/-- V8 -/
theorem test_li_V8 :
    cycle (atState 65535 [] [(65535, 0x0002), (0, 0x1234)]) (fun t => t.pc == 1 && t.readReg 0 == 4660) = true := by decide

/-- V11 -/
theorem test_invalid31_V11 :
    cycle (atState 65535 [] [(65535, 0xFFFF)]) (fun t => t.pc == 0) = true := by decide

/-- V12 -/
theorem test_invalid31_V12 :
    cycle (atState 20 [] [(20, 0x00BF), (21, 17)]) (fun t => t.pc == 21) = true := by decide

/-- V13 -/
theorem test_ld_V13 :
    cycle (atState 0 [] [(0, 0x0023), (1, 0x0064), (100, 200), (200, 1234)]) (fun t => t.pc == 2 && t.readReg 1 == 1234) = true := by decide

/-- V15 -/
theorem test_ld_V15 :
    cycle (atState 20 [] [(20, 0x0003), (21, 0x0015)]) (fun t => t.pc == 22 && t.readReg 0 == 21) = true := by decide

/-- V16 -/
theorem test_ldind_V16 :
    cycle (atState 4 [(0, 300)] [(4, 0x0044), (300, 77)]) (fun t => t.pc == 5 && t.readReg 2 == 77) = true := by decide

/-- V17 -/
theorem test_ldind_V17 :
    cycle (atState 0 [(7, 300)] [(0, 0x07E4), (300, 301)]) (fun t => t.pc == 1 && t.readReg 7 == 301) = true := by decide

/-- V18 -/
theorem test_ldio_V18 :
    cycle (atState 9 [(0, 2)] [(9, 0x0065), (10, 0x0013), (21, 33)]) (fun t => t.pc == 11 && t.readReg 3 == 33) = true := by decide

/-- V19 -/
theorem test_ldio_V19 :
    cycle (atState 100 [(1, 65535)] [(100, 0x0125), (101, 0x0002), (1, 51966)]) (fun t => t.pc == 102 && t.readReg 1 == 51966) = true := by decide

/-- V21 -/
theorem test_stio_V21 :
    cycle (atState 11 [(0, 2), (3, 33)] [(11, 0x1806), (12, 0x0016)]) (fun t => t.pc == 13 && t.readMem 24 == 33) = true := by decide

/-- V22 -/
theorem test_stio_V22 :
    cycle (atState 0 [(2, 65530)] [(0, 0x1206), (1, 0x000A)]) (fun t => t.pc == 2 && t.readMem 4 == 65530) = true := by decide

/-- V25 -/
theorem test_st_V25 :
    cycle (atState 9 [(1, 15)] [(9, 0x0113), (10, 0x000D)]) (fun t => t.pc == 11 && t.readMem 13 == 15) = true := by decide

/-- V26 -/
theorem test_st_V26 :
    cycle (atState 40 [(1, 7)] [(40, 0x0113), (41, 0x0029)]) (fun t => t.pc == 42 && t.readMem 41 == 7) = true := by decide

/-- V30 -/
theorem test_add_V30 :
    cycle (atState 0 [(0, 40000), (1, 40000)] [(0, 0x0847)]) (fun t => t.pc == 1 && t.readReg 2 == 14464) = true := by decide

/-- V31 -/
theorem test_add_V31 :
    cycle (atState 0 [(0, 32769)] [(0, 0x0007)]) (fun t => t.pc == 1 && t.readReg 0 == 2) = true := by decide

/-- V33 -/
theorem test_sub_V33 :
    cycle (atState 0 [(0, 5), (1, 7)] [(0, 0x0848)]) (fun t => t.pc == 1 && t.readReg 2 == 65534) = true := by decide

/-- V35 -/
theorem test_sub_V35 :
    cycle (atState 0 [(0, 0), (1, 32768)] [(0, 0x0848)]) (fun t => t.pc == 1 && t.readReg 2 == 32768) = true := by decide

/-- V39 -/
theorem test_neg_V39 :
    cycle (atState 0 [(0, 32768)] [(0, 0x0029)]) (fun t => t.pc == 1 && t.readReg 1 == 32768) = true := by decide

/-- V40 -/
theorem test_neg_V40 :
    cycle (atState 0 [(0, 65535)] [(0, 0x0029)]) (fun t => t.pc == 1 && t.readReg 1 == 1) = true := by decide

/-- V41 -/
theorem test_xor_V41 :
    cycle (atState 0 [(1, 23130), (3, 4080)] [(0, 0x198A)]) (fun t => t.pc == 1 && t.readReg 4 == 21930) = true := by decide

/-- V42 -/
theorem test_xor_V42 :
    cycle (atState 0 [(1, 23130)] [(0, 0x092A)]) (fun t => t.pc == 1 && t.readReg 1 == 0) = true := by decide

/-- V43 -/
theorem test_nand_V43 :
    cycle (atState 0 [(1, 23130), (2, 4080)] [(0, 0x110B)]) (fun t => t.pc == 1 && t.readReg 0 == 62895) = true := by decide

/-- V44 -/
theorem test_nand_V44 :
    cycle (atState 0 [(0, 9), (1, 65535), (2, 65535)] [(0, 0x110B)]) (fun t => t.pc == 1 && t.readReg 0 == 0) = true := by decide

/-- V46 -/
theorem test_and_V46 :
    cycle (atState 0 [(6, 4080), (7, 23130)] [(0, 0x37EC)]) (fun t => t.pc == 1 && t.readReg 7 == 2640) = true := by decide

/-- V47 -/
theorem test_or_V47 :
    cycle (atState 0 [(2, 23130), (3, 4080)] [(0, 0x1A2D)]) (fun t => t.pc == 1 && t.readReg 1 == 24570) = true := by decide

/-- V48 -/
theorem test_not_V48 :
    cycle (atState 0 [(0, 23130)] [(0, 0x002E)]) (fun t => t.pc == 1 && t.readReg 1 == 42405) = true := by decide

/-- V50 -/
theorem test_not_V50 :
    cycle (atState 0 [(0, 0)] [(0, 0x002E)]) (fun t => t.pc == 1 && t.readReg 1 == 65535) = true := by decide

/-- V51 -/
theorem test_addi_V51 :
    cycle (atState 2 [(0, 65535)] [(2, 0x0012), (3, 0x0001)]) (fun t => t.pc == 4 && t.readReg 0 == 0) = true := by decide

/-- V53 -/
theorem test_addi_V53 :
    cycle (atState 0 [(2, 32768)] [(0, 0x0272), (1, 0x8000)]) (fun t => t.pc == 2 && t.readReg 3 == 0) = true := by decide

/-- V54 -/
theorem test_j_V54 :
    cycle (atState 7 [(5, 40)] [(7, 0x050F)]) (fun t => t.pc == 40) = true := by decide

/-- V55 -/
theorem test_j_V55 :
    cycle (atState 9 [(0, 9)] [(9, 0x000F)]) (fun t => t.pc == 9) = true := by decide

/-- V57 -/
theorem test_jnz_V57 :
    cycle (atState 7 [(0, 32768)] [(7, 0x0010), (8, 0x0004)]) (fun t => t.pc == 4) = true := by decide

/-- V59 -/
theorem test_jnz_V59 :
    cycle (atState 65535 [(0, 0)] [(65535, 0x0010), (0, 0x0004)]) (fun t => t.pc == 1) = true := by decide

/-- V62 -/
theorem test_jimm_V62 :
    cycle (atState 65535 [] [(65535, 0x0011), (0, 0x0309)]) (fun t => t.pc == 777) = true := by decide

/-- V69 -/
theorem test_jimm_V69 :
    cycle (atState 3 [] [(3, 0xFFF1), (4, 0x0008)]) (fun t => t.pc == 8) = true := by decide

/-- V63 -/
theorem test_jz_V63 :
    cycle (atState 10 [(4, 0)] [(10, 0x0414), (11, 0x0014)]) (fun t => t.pc == 20) = true := by decide

/-- V64 -/
theorem test_jz_V64 :
    cycle (atState 10 [(4, 1)] [(10, 0x0414), (11, 0x0014)]) (fun t => t.pc == 12) = true := by decide

/-- V65 -/
theorem test_jn_V65 :
    cycle (atState 5 [(2, 32767)] [(5, 0x0215), (6, 0x0009)]) (fun t => t.pc == 7) = true := by decide

/-- V66 -/
theorem test_jn_V66 :
    cycle (atState 5 [(2, 32768)] [(5, 0x0215), (6, 0x0009)]) (fun t => t.pc == 9) = true := by decide

/-! The assembler and the disassembler: 95_test_vectors.md sections 1 and 4. -/

/-- a label used before and one used after its definition (30 R73) -/
theorem test_assemble_labels :
    assemble "s:\njz r4, e\njimm s\ne:" =
      .ok [(0, 0x0414), (1, 4), (2, 0x0011), (3, 0)] := by decide

/-- the address first in the line, second in memory (30 R56) -/
theorem test_assemble_st : assemble "st 13, r1 ; x" = .ok [(0, 0x0113), (1, 13)] := by decide

theorem test_assemble_S3 :
    assemble "xyz r0, r1" = .error (.diagnostic 1 .unrecognizedInstruction) := by decide
theorem test_assemble_S10 :
    assemble ".org 10\n.org 5" = .error (.diagnostic 2 .nonMonotonicOrg) := by decide
theorem test_assemble_A1 : assemble "" = .ok [] := by decide
theorem test_assemble_A2 : assemble "a:\na:" = .error (.diagnostic 2 .labelRedefinition) := by decide
theorem test_assemble_A3 : assemble ".org" = .error (.diagnostic 1 .directiveArgumentError) := by decide
theorem test_assemble_A4 : assemble ".org 4\n.org 4\n.val 9" = .ok [(4, 9)] := by decide
theorem test_assemble_A5 : assemble ".val 65536" = .error (.diagnostic 1 .directiveArgumentError) := by
  decide
theorem test_assemble_A6 : assemble ".val -1" = .ok [(0, 65535)] := by decide
theorem test_assemble_A7 : assemble ".val x" = .error (.diagnostic 1 .directiveArgumentError) := by decide
/-- R67 and R68: what is no number is refused, whatever its characters. -/
theorem test_directive_not_a_number :
    (assemble ".org ?" = .error (.diagnostic 1 .directiveArgumentError) ∧
      assemble ".org -" = .error (.diagnostic 1 .directiveArgumentError) ∧
      assemble ".org _x" = .error (.diagnostic 1 .directiveArgumentError)) ∧
    assemble ".val ?" = .error (.diagnostic 1 .directiveArgumentError) ∧
      assemble ".val -" = .error (.diagnostic 1 .directiveArgumentError) ∧
      assemble ".val _x" = .error (.diagnostic 1 .directiveArgumentError) ∧
      assemble ".val 'a'" = .error (.diagnostic 1 .directiveArgumentError) := by decide
/-- U19: numbers in another notation have no answer. -/
theorem test_directive_other_notation :
    assemble ".val 0x10" = .error (.unspecified 1 .otherSpelling) ∧
      assemble ".val $10" = .error (.unspecified 1 .otherSpelling) := by decide
theorem test_assemble_A8 : assemble "add r0, r1" = .error (.diagnostic 1 .argumentCountMismatch) := by
  decide
theorem test_assemble_A9 : assemble "mv r0, r8" = .error (.diagnostic 1 .badOperandSyntax) := by decide
theorem test_assemble_A10 : assemble "mv r0, 5" = .error (.diagnostic 1 .badOperandSyntax) := by decide
theorem test_assemble_A11 : assemble "jimm nowhere" = .error (.diagnostic 1 .unresolvedLabel) := by decide
theorem test_assemble_A12 : assemble "li r0, 70000" = .error (.diagnostic 1 .operandOutOfRange) := by
  decide
theorem test_assemble_A13 : assemble "li r0, 1\n\nxyz" = .ok [(0, 2), (1, 1)] := by decide
theorem test_assemble_A14 : assemble "LI r0, 1" = .ok [(0, 2), (1, 1)] := by decide

/-- S8 -/
theorem test_disassemble_S8_add : disassembleChars 0x0847 0 = "add r2, r0, r1".toList := by decide
theorem test_disassemble_S8_st : disassembleChars 0x0113 0x000D = "st 13, r1".toList := by decide
theorem test_disassemble_S8_addi : disassembleChars 0x0012 0xFFFF = "addi r0, r0, 65535".toList := by decide
theorem test_disassemble_S8_unknown : disassembleChars 0x0016 0 = "???".toList := by decide

/-! Witnesses: a concrete state and operands that meet a statement's hypotheses. -/

theorem witness_NopAdvancesThePcOnly :
    opcodeAt (atState 65535 [] [(65535, 0xDA20), (0, 9)]) = 0 := by decide

theorem witness_MvCopiesARegister :
    opcodeAt (atState 65535 [] [(65535, 0xDA21), (0, 9)]) = 1 := by decide

theorem witness_LiLoadsTheNextWord :
    opcodeAt (atState 65535 [] [(65535, 0xDA22), (0, 9)]) = 2 := by decide

theorem witness_LdLoadsThroughAPointer :
    opcodeAt (atState 65535 [] [(65535, 0xDA23), (0, 9)]) = 3 := by decide

theorem witness_LdindLoadsFromARegisterAddress :
    opcodeAt (atState 65535 [] [(65535, 0xDA24), (0, 9)]) = 4 := by decide

theorem witness_LdioLoadsFromBasePlusOffset :
    opcodeAt (atState 65535 [] [(65535, 0xDA25), (0, 9)]) = 5 := by decide

theorem witness_StioStoresAtBasePlusOffset :
    opcodeAt (atState 65535 [] [(65535, 0xDA26), (0, 9)]) = 6 := by decide

theorem witness_StStoresAtTheNextWord :
    opcodeAt (atState 65535 [] [(65535, 0xDA33), (0, 9)]) = 19 := by decide

theorem witness_AddWritesTheSumModulo65536 :
    opcodeAt (atState 65535 [] [(65535, 0xDA27), (0, 9)]) = 7 := by decide

theorem witness_SubWritesTheDifferenceModulo65536 :
    opcodeAt (atState 65535 [] [(65535, 0xDA28), (0, 9)]) = 8 := by decide

theorem witness_NegWritesTheNegationModulo65536 :
    opcodeAt (atState 65535 [] [(65535, 0xDA29), (0, 9)]) = 9 := by decide

theorem witness_XorWritesTheBitwiseExclusiveOr :
    opcodeAt (atState 65535 [] [(65535, 0xDA2A), (0, 9)]) = 10 := by decide

theorem witness_NandWritesTheComplementOfTheAnd :
    opcodeAt (atState 65535 [] [(65535, 0xDA2B), (0, 9)]) = 11 := by decide

theorem witness_AndWritesTheBitwiseAnd :
    opcodeAt (atState 65535 [] [(65535, 0xDA2C), (0, 9)]) = 12 := by decide

theorem witness_OrWritesTheBitwiseOr :
    opcodeAt (atState 65535 [] [(65535, 0xDA2D), (0, 9)]) = 13 := by decide

theorem witness_NotWritesTheComplement :
    opcodeAt (atState 65535 [] [(65535, 0xDA2E), (0, 9)]) = 14 := by decide

theorem witness_AddiWritesTheSumWithTheNextWord :
    opcodeAt (atState 65535 [] [(65535, 0xDA32), (0, 9)]) = 18 := by decide

theorem witness_JJumpsToTheRegister :
    opcodeAt (atState 65535 [] [(65535, 0xDA2F), (0, 9)]) = 15 := by decide

theorem witness_JnzJumpsWhenNotZero :
    opcodeAt (atState 65535 [] [(65535, 0xDA30), (0, 9)]) = 16 := by decide

theorem witness_JimmJumpsToTheNextWord :
    opcodeAt (atState 65535 [] [(65535, 0xDA31), (0, 9)]) = 17 := by decide

theorem witness_JzJumpsWhenZero :
    opcodeAt (atState 65535 [] [(65535, 0xDA34), (0, 9)]) = 20 := by decide

theorem witness_JnJumpsWhenNegative :
    opcodeAt (atState 65535 [] [(65535, 0xDA35), (0, 9)]) = 21 := by decide

theorem witness_InvalidOpcodesActAsNop :
    22 ≤ opcodeAt (atState 7 [] [(7, 0x0016)]) ∧ 22 ≤ opcodeAt (atState 7 [] [(7, 0xFFFF)]) ∧
      22 ≤ (0x0016 : Word).toNat % 32 ∧ findMnemonic ['N', 'o', 'P'] = some .nop := by decide

theorem witness_StepRunsTheDecodedInstruction :
    let s := atState 65535 [] [(65535, 0x0002), (0, 0x1234)]
    decodeWords [s.readMem s.pc, nwAt s] = .ok (.li 0 0x1234, []) := by decide

theorem witness_PlacedInstructionIsTheOneThatRuns :
    decodeTableWord 32 0x00161806 = some (.stio 0 3 22) ∧ decodeTableWord 16 0x0847 = some (.add 2 0 1) := by decide

theorem witness_BatchRunsCyclesInSequence :
    ∃ t, step (atState 0 [] [(0, 0x0002), (1, 5)]) = .next t ∧
      batch 1 (atState 0 [] [(0, 0x0002), (1, 5)]) = .next t := ⟨_, rfl, rfl⟩

theorem witness_OnlyTheDestinationAndTheTargetChange :
    let s := atState 0 [(1, 15)] []
    (∃ t, exec (.st 13 1) s = .next t) ∧ destReg (.st 13 1) ≠ some 1 ∧ storeTarget (.st 13 1) s ≠ some 12 := ⟨⟨_, rfl⟩, by decide, by decide⟩

theorem witness_PcMovesPastEveryInstructionButJumps :
    isJump (.li 0 9) = false ∧ ∃ t, exec (.li 0 9) (atState 65534 [] []) = .next t := ⟨rfl, _, rfl⟩

theorem witness_StepKeepsTheMemoryCanonical :
    (atState 0 [(0, 7)] [(0, 0x0013), (1, 65535)]).mem.wf = true ∧
      ∃ t, step (atState 0 [(0, 7)] [(0, 0x0013), (1, 65535)]) = .next t := ⟨by decide, _, rfl⟩

theorem witness_EncodeOfDecodeIsTheCanonicalWords :
    wellFormed [0x1806, 22] = true ∧ wellFormed [0x0847] = true ∧ wellFormed [31] = true := by decide

theorem witness_SpareBitsAreIgnored :
    (0x0847 : Word).toNat % 16384 = (0xC847 : Word).toNat % 16384 ∧ (0x0847 : Word) ≠ 0xC847 := by decide

theorem witness_UnusedFieldsAreIgnored :
    (0x0561 : Word).toNat % 32 = (0xFD61 : Word).toNat % 32 ∧ fieldD 0x0561 = fieldD 0xFD61 ∧
      fieldA 0x0561 = fieldA 0xFD61 ∧ opUses (opOf 0x0561) .srcB = false ∧
      opUses (opOf 0x0561) .addr = false ∧ fieldB 0x0561 ≠ fieldB 0xFD61 := by decide

theorem witness_CanonicalMemoriesThatReadAlikeAreEqual :
    Memory.wf [(3, 7)] = true ∧ (Memory.write [(3, 7), (9, 1)] 9 0).wf = true ∧
      ∀ a, Memory.read [(3, 7)] a = (Memory.write [(3, 7), (9, 1)] 9 0).read a := ⟨by decide, by decide, fun _ => rfl⟩

theorem witness_StoreIsSeenByTheNextFetch :
    let s := atState 65533 [(0, 17), (1, 65535)] []
    (∃ t, exec (.st 65535 0) s = .next t) ∧ (65535 : Word) = wrap16 (s.pc.toNat + 2) ∧
      (∃ t, exec (.st 0 0) s = .next t) ∧ (0 : Word) = wrap16 (s.pc.toNat + 3) ∧
      (∃ t, exec (.stio 1 0 0) s = .next t) ∧ s.effAddr 1 0 = wrap16 (s.pc.toNat + 2) ∧
      s.effAddr 1 1 = wrap16 (s.pc.toNat + 3) := ⟨⟨_, rfl⟩, by decide, ⟨_, rfl⟩, by decide, ⟨_, rfl⟩, by decide, by decide⟩

theorem witness_StoreOverItselfDoesNotAffectTheInstruction :
    let s := atState 40 [] [(40, 0x0113), (41, 40)]
    let s1 := atState 65535 [] [(65535, 0x0113)]
    let u := atState 30 [(0, 0), (1, 7)] [(30, 0x0806), (31, 30)]
    let u1 := atState 30 [(0, 0), (1, 7)] [(30, 0x0806), (31, 31)]
    (opcodeAt s = 19 ∧ nwAt s = s.pc) ∧ (opcodeAt s1 = 19 ∧ nwAt s1 = wrap16 (s1.pc.toNat + 1)) ∧
      (opcodeAt u = 6 ∧ u.effAddr (aAt u) (nwAt u) = u.pc) ∧
      (opcodeAt u1 = 6 ∧ u1.effAddr (aAt u1) (nwAt u1) = wrap16 (u1.pc.toNat + 1)) := by decide

theorem witness_NextWordOfTheLastAddressIsAtZero :
    ∀ k ∈ [2, 3, 5, 6, 16, 17, 18, 19, 20, 21],
      let s := atState 65535 [] [(65535, BitVec.ofNat 16 k), (0, 0x1234)]
      let u := atState 65534 [] [(65534, BitVec.ofNat 16 k), (65535, 9)]
      (s.pc.toNat = 65535 ∧ s.readMem 0 = 0x1234 ∧ opcodeAt s = k) ∧
        (u.pc.toNat = 65534 ∧ u.readMem 65535 = 9 ∧ opcodeAt u = k) := by decide

theorem witness_SelfJumpKeepsTheStateForEver :
    let s := atState 11 [] [(11, 0x0011), (12, 11)]
    let u := atState 9 [(0, 9)] [(9, 0x000F)]
    (opcodeAt s = 17 ∧ nwAt s = s.pc) ∧ (opcodeAt u = 15 ∧ u.readReg (aAt u) = u.pc) := by decide

theorem witness_SubThenJnComparesAsSigned :
    let s := atState 0 [(0, 32767), (1, 0), (2, 32768)] []
    ((s.readReg 0).toInt - (s.readReg 1).toInt = 32767) ∧
      ((s.readReg 2).toInt - (s.readReg 1).toInt = -32768) := by decide

theorem witness_RegistersAreAllAlike :
    let s := atState 0 [(0, 5), (1, 6)] []
    let s' := atState 0 [(0, 6), (1, 5)] []
    s'.pc = s.pc ∧ SameMem s s' ∧ (∀ r, s'.readReg (Equiv.swap 0 1 r) = s.readReg r) ∧
      ∃ t, exec (.add 0 0 1) s = .next t := ⟨rfl, fun _ => rfl, by decide, _, rfl⟩

theorem witness_OutcomeDependsOnlyOnWhatIsRead :
    let s := atState 0 [(0, 300), (5, 1)] [(300, 77)]
    let s' := atState 0 [(0, 300), (5, 2)] [(300, 77), (301, 4)]
    s.pc = s'.pc ∧ (∀ r ∈ srcRegs (.ldind 2 0), s.readReg r = s'.readReg r) ∧
      (∀ a ∈ dataReads (.ldind 2 0) s, s.readMem a = s'.readMem a) ∧
      (∃ t, exec (.ldind 2 0) s = .next t) ∧ (∃ t, exec (.ldind 2 0) s' = .next t) := ⟨rfl, by decide, fun a ha => by rw [List.mem_singleton.mp ha]; rfl, ⟨_, rfl⟩, ⟨_, rfl⟩⟩

theorem witness_InstallPlacesExactlyTheImage :
    let image : Image := [(0, 0x0011), (65535, 9)]
    (image.map Prod.fst).Nodup ∧ (∀ c ∈ image, c.1 < 65536) ∧ (5 : Word).toNat ∉ image.map Prod.fst ∧
      Memory.wf [(5, 8)] = true := by decide

theorem witness_AssembledImagesNameEachAddressOnce :
    ∃ image, assemble ".org 4\n.val 9" = .ok image := ⟨[(4, 9)], by decide⟩

theorem witness_AssembledInstructionsAreCanonical :
    ∃ st, asmInstruction 1 AsmState.start ['j'] [['r', '5']] = .ok st := ⟨_, rfl⟩

/-- S9: a forward reference in line 1, and the label in line 2 at address 2. -/
theorem witness_LabelsResolveToTheirAddresses :
    let source := "jimm x\nx:\nnop".toList
    assembleChars source = .ok [(0, 0x0011), (1, 2), (2, 0)] ∧ NamesLabel source ['x'] 1 1 ∧
      DefinesLabel source ['x'] 2 :=
  ⟨by decide,
    ⟨[], "jimm x".toList, AsmState.start, "jimm".toList, [['x']], .jimm, [['x']], 0,
      ⟨⟨[['x', ':'], ['n', 'o', 'p']], by decide⟩, by decide, by decide⟩, by decide⟩,
    ⟨["jimm x".toList], ['x', ':'],
      { cursor := 2, items := [(0, .word 0x0011), (1, .label ['x'] 1)], labels := [] },
      ⟨⟨[['n', 'o', 'p']], by decide⟩, by decide, by decide⟩, by decide⟩⟩

/-- A11: the label is named in line 1 and no line defines it. -/
theorem witness_LabelsResolveToTheirAddresses_unresolved :
    let source := "jimm x".toList
    assembleChars source = .error (.diagnostic 1 .unresolvedLabel) ∧ NamesLabel source ['x'] 1 1 ∧
      (∃ st, asmLines 1 AsmState.start (splitAtChars (fun c => c == '\n') source) = .ok st) ∧
      ∀ t, ¬DefinesLabel source ['x'] t := by
  refine ⟨by decide, ⟨[], "jimm x".toList, AsmState.start, "jimm".toList, [['x']], .jimm, [['x']], 0,
      ⟨⟨[], by decide⟩, by decide, by decide⟩, by decide⟩,
    ⟨{ cursor := 2, items := [(0, .word 0x0011), (1, .label ['x'] 1)], labels := [] }, by decide⟩, ?_⟩
  rintro t ⟨before, line, st, ⟨⟨after, h⟩, -, -⟩, hl, -⟩
  have h1 : "jimm x".toList = line := by
    have hs : splitAtChars (fun c => c == '\n') "jimm x".toList = ["jimm x".toList] := by decide
    rw [hs] at h
    cases before with
    | nil => exact (List.cons.inj h).1
    | cons b bs => exact absurd (List.cons.inj h).2.symm (by simp)
  rw [← h1] at hl
  exact absurd hl (by decide)

theorem witness_ResolveReplacesEachReferenceByItsTableEntry :
    resolve [(['x'], 3)] [(0, .word 17), (1, .label ['x'] 1)] = .ok [(0, 17), (1, 3)] ∧
      resolve [] [(1, .label ['x'] 1)] = .error (.diagnostic 1 .unresolvedLabel) := by decide

/-- The boundaries of R67: a value equal to the cursor, the last address, -1, a label name and `?`. -/
theorem witness_OrgMovesTheCursorForwardOnly :
    isLabelName ['r', '5'] = true ∧
      (∀ c ∈ ['?'], isDigitChar c = false ∧ c ∉ [',', '$', '%']) ∧
      assemble ".org 3\n.org 3" = .ok [] ∧ assemble ".org 65535" = .ok [] ∧
      assemble ".org -1" = .error (.diagnostic 1 .nonMonotonicOrg) :=
  ⟨by decide, by simp [isDigitChar], by decide⟩

/-- The boundaries of R68 and R74: -32768, -32769, and the last cursor that takes a word. -/
theorem witness_ValEmitsOneWord :
    isLabelName ['x'] = true ∧
      (∀ c ∈ ['-'], isDigitChar c = false ∧ c ∉ [',', '$', '%']) ∧
      assemble ".val -32768" = .ok [(0, 32768)] ∧
      assemble ".val -32769" = .error (.diagnostic 1 .directiveArgumentError) ∧
      assemble ".org 65534\n.val 65535" = .ok [(65534, 65535)] :=
  ⟨by decide, by simp [isDigitChar], by decide⟩

theorem witness_TextAfterABlankLineIsIgnored :
    '\n' ∉ [' ', ';', 'x'] ∧ cleanLine [' ', ';', 'x'] = [] := by decide

theorem witness_DisassembledLinesAssembleToTheSameWords :
    opDefined (Instr.stio 0 3 65535).op = true := by decide

end Sys2Proof.Tests
end

section
/-! PROOFS. The statements about the machine's state (spec/10_state.md): the frame of every instruction,
the PC, the canonical form of memory, the state after reset, and what an instruction's effect depends on. -/

namespace Sys2Proof.Proofs

open Sys2Proof.Machine Sys2Proof.Safety

/-! ### Canonical memories -/

theorem wfFrom_cons {lo k : Nat} {v : Word} {m : Memory} :
    Memory.wfFrom lo ((k, v) :: m) = true ↔
      lo ≤ k ∧ k < Config.memWords ∧ v ≠ Config.unwrittenWord ∧ Memory.wfFrom (k + 1) m = true := by
  simp [Memory.wfFrom, and_assoc]

/-- The first listed word of a canonical memory tells it from every canonical memory whose addresses
all lie above it. -/
theorem not_lookup_eq_of_wfFrom_succ {lo k : Nat} {v : Word} {m m' : Memory}
    (hm : Memory.wfFrom lo ((k, v) :: m) = true) (hm' : Memory.wfFrom (k + 1) m' = true) :
    ¬ ∀ a < Config.memWords, Memory.lookup ((k, v) :: m) a = m'.lookup a := by
  obtain ⟨-, hk, hv, -⟩ := wfFrom_cons.mp hm
  intro h
  have hkv : v = m'.lookup k := by simpa [Memory.lookup] using h k hk
  exact hv (hkv.trans (Memory.lookup_of_lt hm' k.lt_succ_self))

theorem lookup_tails_eq {k : Nat} {v v' : Word} {m m' : Memory}
    (hm : Memory.wfFrom (k + 1) m = true) (hm' : Memory.wfFrom (k + 1) m' = true)
    (h : ∀ a < Config.memWords, Memory.lookup ((k, v) :: m) a = Memory.lookup ((k, v') :: m') a) :
    ∀ a < Config.memWords, m.lookup a = m'.lookup a := by
  intro a ha
  by_cases hak : a < k + 1
  · rw [Memory.lookup_of_lt hm hak, Memory.lookup_of_lt hm' hak]
  · simpa [Memory.lookup, show k ≠ a by omega] using h a ha

theorem eq_of_lookup_eq {lo : Nat} {m m' : Memory} (hm : Memory.wfFrom lo m = true)
    (hm' : Memory.wfFrom lo m' = true) (h : ∀ a < Config.memWords, m.lookup a = m'.lookup a) :
    m = m' := by
  induction m generalizing lo m' with
  | nil =>
    cases m' with
    | nil => rfl
    | cons c m' => exact absurd (fun a ha => (h a ha).symm) (not_lookup_eq_of_wfFrom_succ hm' rfl)
  | cons c m ih =>
    obtain ⟨k, v⟩ := c
    cases m' with
    | nil => exact absurd h (not_lookup_eq_of_wfFrom_succ hm rfl)
    | cons c' m' =>
      obtain ⟨k', v'⟩ := c'
      obtain ⟨-, hk, hv, hrest⟩ := wfFrom_cons.mp hm
      obtain ⟨-, hk', hv', hrest'⟩ := wfFrom_cons.mp hm'
      obtain hlt | rfl | hgt := Nat.lt_trichotomy k k'
      · exact absurd h
          (not_lookup_eq_of_wfFrom_succ hm (wfFrom_cons.mpr ⟨hlt, hk', hv', hrest'⟩))
      · have hvv : v = v' := by simpa [Memory.lookup] using h k hk
        rw [hvv, ih hrest hrest' (lookup_tails_eq hrest hrest' h)]
      · exact absurd (fun a ha => (h a ha).symm)
          (not_lookup_eq_of_wfFrom_succ hm' (wfFrom_cons.mpr ⟨hgt, hk, hv, hrest⟩))

/-- Settles O40: the two lists agree address by address, by induction on the first. -/
theorem canonicalMemoriesThatReadAlikeAreEqual :
    Obligations.CanonicalMemoriesThatReadAlikeAreEqual := by
  intro m m' hm hm' h
  refine eq_of_lookup_eq hm hm' fun a ha => ?_
  have hmod : a % 2 ^ 16 = a := Nat.mod_eq_of_lt ha
  simpa only [Memory.read, BitVec.toNat_ofNat, hmod] using h (BitVec.ofNat 16 a)

/-- Some canonical memory holds given words at any finite set of addresses: write them one by one. -/
theorem exists_wf_read_eq (g : Word → Word) (addrs : Finset Word) :
    ∃ m : Memory, m.wf = true ∧ ∀ a ∈ addrs, m.read a = g a := by
  induction addrs using Finset.induction with
  | empty => exact ⟨[], rfl, by simp⟩
  | insert b addrs _ ih =>
    obtain ⟨m, hwf, hread⟩ := ih
    refine ⟨m.write b (g b), Memory.wf_write hwf _ _, fun a ha => ?_⟩
    rw [Memory.read_write]
    split_ifs with hab
    · rw [hab]
    · exact hread a ((Finset.mem_insert.mp ha).resolve_left hab)

/-! ### The state after reset -/

theorem init_readReg (regs : Vector Word 8) (m : Memory) (r : Reg) :
    (State.init regs m).readReg r = regs[r] := rfl

/-- Settles O31. -/
theorem resetStateIsAtZeroWithCanonicalMemory :
    Obligations.ResetStateIsAtZeroWithCanonicalMemory := by
  refine ⟨rfl, Memory.reset_wf, fun r => ?_, fun _ => rfl⟩
  rw [State.reset, init_readReg]
  exact Vector.getElem_replicate _

/-- Settles O32: the registers are `f`'s values, and the memory is written word by word. -/
theorem resetMayLeaveAnyContents : Obligations.ResetMayLeaveAnyContents := by
  refine ⟨fun _ _ => rfl, fun f g => ?_⟩
  obtain ⟨m, hwf, hread⟩ := exists_wf_read_eq g Finset.univ
  refine ⟨Vector.ofFn f, m, hwf, fun r => ?_, fun a => hread a (Finset.mem_univ a)⟩
  rw [init_readReg]
  exact Vector.getElem_ofFn _

/-! ### What one instruction changes -/

theorem exec_mem_wf {i : Instr} {s t : State} (hs : s.mem.wf = true) (h : exec i s = .next t) :
    t.mem.wf = true := by
  obtain ⟨he, -⟩ | ⟨d, v, he, -⟩ | ⟨a, v, he, -⟩ | ⟨target, he, -⟩ := exec_shape i s <;>
    rw [he] at h <;> cases h
  · exact hs
  · exact hs
  · exact Memory.wf_write hs a v
  · exact hs

/-- Settles O30: a step executes one instruction, which at most writes one word of memory. -/
theorem stepKeepsTheMemoryCanonical : Obligations.StepKeepsTheMemoryCanonical :=
  fun _ _ => exec_mem_wf

/-- Settles O28, by the four shapes of an execution and what each leaves unchanged. -/
theorem onlyTheDestinationAndTheTargetChange : Obligations.OnlyTheDestinationAndTheTargetChange := by
  intro i s t h
  obtain ⟨he, hd, ha⟩ | ⟨d, v, he, hd, ha, -⟩ | ⟨a, v, he, ha, hd, -⟩ | ⟨target, he, hd, ha, -⟩ :=
    exec_shape i s <;> rw [he] at h
  · obtain ⟨-, hregs, hmem⟩ := finish_frame h
    exact ⟨fun r _ => hregs r, fun a _ => hmem a, .inl hd⟩
  · obtain ⟨-, -, hregs, hmem⟩ := finishReg_frame h
    exact ⟨fun r hr => hregs r fun hrd => hr (hrd ▸ hd), fun a _ => hmem a, .inr ha⟩
  · obtain ⟨-, -, hmem, hregs⟩ := finishMem_frame h
    exact ⟨fun r _ => hregs r, fun b hb => hmem b fun hba => hb (hba ▸ ha), .inl hd⟩
  · obtain ⟨-, hregs, hmem⟩ := finishJump_frame h
    exact ⟨fun r _ => hregs r, fun a _ => hmem a, .inl hd⟩

theorem exec_pcPast_of_not_isJump {i : Instr} {s t : State} (hi : isJump i = false)
    (h : exec i s = .next t) : PcPast s t (opWords i.op) := by
  obtain ⟨he, -⟩ | ⟨d, v, he, -⟩ | ⟨a, v, he, -⟩ | ⟨target, -, -, -, hj⟩ := exec_shape i s
  · exact (finish_frame (he ▸ h)).1
  · exact (finishReg_frame (he ▸ h)).2.1
  · exact (finishMem_frame (he ▸ h)).2.1
  · exact absurd hj (by simp [hi])

/-- R48's list, without the jumps that take a next word. -/
theorem opWords_of_not_isJump {i : Instr} (hi : isJump i = false) :
    opWords i.op = if i.op ∈ [.li, .ld, .ldio, .stio, .addi, .st] then 2 else 1 := by
  cases i with
  | j | jnz | jimm | jz | jn => cases hi
  | _ => rfl

/-- Settles O29: what is no jump moves past its own words, and their number is R48's. -/
theorem pcMovesPastEveryInstructionButJumps : Obligations.PcMovesPastEveryInstructionButJumps :=
  fun _ _ _ hi h => opWords_of_not_isJump hi ▸ exec_pcPast_of_not_isJump hi h

/-! ### What the effect of an instruction depends on -/

/-- What one instruction does to a state, with every word it read put in: it moves the PC past `n`
words, after writing a register or a memory word or neither, or it sets the PC. -/
inductive Effect where
  | past (n : Nat)
  | reg (d : Reg) (v : Word) (n : Nat)
  | mem (a v : Word) (n : Nat)
  | jump (target : Word)

/-- The state after an effect. -/
def Effect.apply (e : Effect) (s : State) : State :=
  match e with
  | .past n => s.advance n
  | .reg d v n => (s.writeReg d v).advance n
  | .mem a v n => (s.writeMem a v).advance n
  | .jump target => s.setPc target

/-- The effect on the registers renamed by `f`. -/
def Effect.renamed (f : Reg → Reg) (e : Effect) : Effect :=
  match e with
  | .past n => .past n
  | .reg d v n => .reg (f d) v n
  | .mem a v n => .mem a v n
  | .jump target => .jump target

/-- The register an effect writes. -/
def Effect.dest (e : Effect) : Option Reg :=
  match e with
  | .reg d _ _ => some d
  | _ => none

/-- The address an effect stores to. -/
def Effect.target (e : Effect) : Option Word :=
  match e with
  | .mem a _ _ => some a
  | _ => none

theorem Effect.apply_pc_eq {s s' : State} (f : Reg → Reg) (e : Effect) (h : s'.pc = s.pc) :
    ((e.renamed f).apply s').pc = (e.apply s).pc := by
  cases e <;> simp [Effect.renamed, Effect.apply, h]

theorem Effect.apply_readMem_eq {s s' : State} (f : Reg → Reg) (e : Effect) (h : SameMem s s') :
    SameMem (e.apply s) ((e.renamed f).apply s') := by
  intro b
  cases e with
  | mem a v n => simp [Effect.renamed, Effect.apply, writeMem_readMem, h b]
  | past | reg | jump => exact h b

theorem Effect.apply_readReg_eq {s s' : State} {f : Reg → Reg} (hf : f.Injective) (e : Effect)
    (h : ∀ r, s'.readReg (f r) = s.readReg r) (r : Reg) :
    ((e.renamed f).apply s').readReg (f r) = (e.apply s).readReg r := by
  cases e with
  | reg d v n => simp [Effect.renamed, Effect.apply, writeReg_readReg, hf.eq_iff, h r]
  | past | mem | jump => exact h r

theorem Effect.apply_readReg_dest {e : Effect} {d : Reg} (h : e.dest = some d) (s s' : State) :
    (e.apply s).readReg d = (e.apply s').readReg d := by
  cases e with
  | reg => cases h; simp [Effect.apply]
  | past | mem | jump => cases h

theorem Effect.apply_readMem_target {e : Effect} {a : Word} (h : e.target = some a) (s s' : State) :
    (e.apply s).readMem a = (e.apply s').readMem a := by
  cases e with
  | mem => cases h; simp [Effect.apply]
  | past | reg | jump => cases h

/-- `i` in `s` and `i` with its registers renamed in `s'` have the effect `e`, renamed in `s'`, and `e`
writes where the spec's tables say. -/
structure SharedEffect (f : Reg → Reg) (i : Instr) (s s' : State) (e : Effect) : Prop where
  exec_eq : exec i s = .next (e.apply s)
  exec_renamed_eq : exec (renamed f i) s' = .next ((e.renamed f).apply s')
  destReg_eq : destReg i = e.dest
  storeTarget_eq : storeTarget i s = e.target
  storeTarget_renamed_eq : storeTarget (renamed f i) s' = e.target

section
variable {f : Reg → Reg} {i : Instr} {s s' : State}

theorem SharedEffect.of_finishReg {d : Reg} {v v' : Word} {n : Nat}
    (h : exec i s = finishReg s d v n)
    (h' : exec (renamed f i) s' = finishReg s' (f d) v' n) (hd : destReg i = some d)
    (ht : storeTarget i s = none) (ht' : storeTarget (renamed f i) s' = none) (hv : v' = v) :
    ∃ e, SharedEffect f i s s' e :=
  ⟨.reg d v n, h, hv ▸ h', hd, ht, ht'⟩

theorem SharedEffect.of_finishMem {a a' v v' : Word} {n : Nat} (h : exec i s = finishMem s a v n)
    (h' : exec (renamed f i) s' = finishMem s' a' v' n) (hd : destReg i = none)
    (ht : storeTarget i s = some a) (ht' : storeTarget (renamed f i) s' = some a') (ha : a' = a)
    (hv : v' = v) : ∃ e, SharedEffect f i s s' e :=
  ⟨.mem a v n, h, ha ▸ hv ▸ h', hd, ht, ha ▸ ht'⟩

theorem SharedEffect.of_finishJump {target target' : Word} (h : exec i s = finishJump s target)
    (h' : exec (renamed f i) s' = finishJump s' target') (hd : destReg i = none)
    (ht : storeTarget i s = none) (ht' : storeTarget (renamed f i) s' = none)
    (htarget : target' = target) : ∃ e, SharedEffect f i s s' e :=
  ⟨.jump target, h, htarget ▸ h', hd, ht, ht'⟩

theorem SharedEffect.of_finishBranch {c c' : Bool} {target : Word}
    (h : exec i s = finishBranch s c target)
    (h' : exec (renamed f i) s' = finishBranch s' c' target) (hd : destReg i = none)
    (ht : storeTarget i s = none) (ht' : storeTarget (renamed f i) s' = none) (hc : c' = c) :
    ∃ e, SharedEffect f i s s' e := by
  subst hc
  cases c' with
  | true => exact ⟨.jump target, h, h', hd, ht, ht'⟩
  | false => exact ⟨.past 2, h, h', hd, ht, ht'⟩

theorem effAddr_eq_of_readReg_eq {a a' : Reg} (h : s'.readReg a' = s.readReg a) (nw : Word) :
    s'.effAddr a' nw = s.effAddr a nw := by
  rw [State.effAddr, State.effAddr, h]

/-- Everything an instruction's effect depends on is in the tables of 10 R15 and 20 R33: in two states
that agree there, up to a renaming of the registers, it has one effect, up to that renaming. -/
theorem exists_sharedEffect (hreg : ∀ r ∈ srcRegs i, s'.readReg (f r) = s.readReg r)
    (hmem : ∀ a ∈ dataReads i s, s'.readMem a = s.readMem a) : ∃ e, SharedEffect f i s s' e := by
  cases i with
  | nop | invalid22 | invalid23 | invalid24 | invalid25 | invalid26 | invalid27 | invalid28
  | invalid29 | invalid30 | invalid31 => exact ⟨.past 1, rfl, rfl, rfl, rfl, rfl⟩
  | li d nw => exact SharedEffect.of_finishReg rfl rfl rfl rfl rfl rfl
  | mv d a | neg d a | not d a | addi d a nw =>
    have ha : s'.readReg (f a) = s.readReg a := hreg a (by simp [srcRegs])
    exact SharedEffect.of_finishReg rfl rfl rfl rfl rfl (by rw [ha])
  | add d a b | sub d a b | xor d a b | nand d a b | and d a b | or d a b =>
    have ha : s'.readReg (f a) = s.readReg a := hreg a (by simp [srcRegs])
    have hb : s'.readReg (f b) = s.readReg b := hreg b (by simp [srcRegs])
    exact SharedEffect.of_finishReg rfl rfl rfl rfl rfl (by rw [ha, hb])
  | ld d nw =>
    have hp : s'.readMem nw = s.readMem nw := hmem nw (by simp [dataReads])
    have hv : s'.readMem (s.readMem nw) = s.readMem (s.readMem nw) := hmem _ (by simp [dataReads])
    have ht : s'.readThrough nw = s.readThrough nw := by
      rw [State.readThrough, State.readThrough, hp, hv]
    exact SharedEffect.of_finishReg rfl rfl rfl rfl rfl ht
  | ldind d a =>
    have ha : s'.readReg (f a) = s.readReg a := hreg a (by simp [srcRegs])
    have hv : s'.readMem (s.readReg a) = s.readMem (s.readReg a) := hmem _ (by simp [dataReads])
    exact SharedEffect.of_finishReg rfl rfl rfl rfl rfl (by rw [ha, hv])
  | ldio d a nw =>
    have ha : s'.effAddr (f a) nw = s.effAddr a nw :=
      effAddr_eq_of_readReg_eq (hreg a (by simp [srcRegs])) nw
    have hv : s'.readMem (s.effAddr a nw) = s.readMem (s.effAddr a nw) :=
      hmem _ (by simp [dataReads])
    exact SharedEffect.of_finishReg rfl rfl rfl rfl rfl (by rw [ha, hv])
  | stio a b nw =>
    have ha : s'.effAddr (f a) nw = s.effAddr a nw :=
      effAddr_eq_of_readReg_eq (hreg a (by simp [srcRegs])) nw
    have hb : s'.readReg (f b) = s.readReg b := hreg b (by simp [srcRegs])
    exact SharedEffect.of_finishMem rfl rfl rfl rfl rfl ha hb
  | st nw a => exact SharedEffect.of_finishMem rfl rfl rfl rfl rfl rfl (hreg a (by simp [srcRegs]))
  | j a => exact SharedEffect.of_finishJump rfl rfl rfl rfl rfl (hreg a (by simp [srcRegs]))
  | jimm nw => exact SharedEffect.of_finishJump rfl rfl rfl rfl rfl rfl
  | jnz a nw | jz a nw | jn a nw =>
    have ha : s'.readReg (f a) = s.readReg a := hreg a (by simp [srcRegs])
    exact SharedEffect.of_finishBranch rfl rfl rfl rfl rfl (by rw [ha])

end

/-- Settles O48: the renamed instruction has the renamed effect, and a permutation keeps apart the
register written and the others. -/
theorem registersAreAllAlike : Obligations.RegistersAreAllAlike := by
  intro f i s s' t hpc hmem hreg h
  obtain ⟨e, he⟩ := exists_sharedEffect (f := f) (i := i) (fun r _ => hreg r) (fun a _ => hmem a)
  rw [he.exec_eq] at h
  cases h
  exact ⟨_, he.exec_renamed_eq, e.apply_pc_eq f hpc, e.apply_readMem_eq f hmem,
    e.apply_readReg_eq f.injective hreg⟩

theorem renamed_id (i : Instr) : renamed id i = i := by
  cases i <;> rfl

theorem Effect.renamed_id (e : Effect) : e.renamed id = e := by
  cases e <;> rfl

/-- Settles O49: two states that agree in what an instruction reads give it the same effect, renaming
nothing. -/
theorem outcomeDependsOnlyOnWhatIsRead : Obligations.OutcomeDependsOnlyOnWhatIsRead := by
  intro i s s' t t' hpc hreg hmem h h'
  obtain ⟨e, he⟩ := exists_sharedEffect (f := id) (fun r hr => (hreg r hr).symm)
    (fun a ha => (hmem a ha).symm)
  obtain ⟨hexec, hexec', hdest, htarget, htarget'⟩ := he
  rw [renamed_id, Effect.renamed_id] at hexec'
  rw [renamed_id] at htarget'
  rw [hexec] at h
  rw [hexec'] at h'
  cases h
  cases h'
  refine ⟨?_, fun d hd => ?_, htarget.trans htarget'.symm, fun a ha => ?_⟩
  · simpa [Effect.renamed_id] using e.apply_pc_eq id hpc
  · exact Effect.apply_readReg_dest (hdest.symm.trans hd) s s'
  · exact Effect.apply_readMem_target (htarget.symm.trans ha) s s'

end Sys2Proof.Proofs
end

section
/-! PROOFS. The statements about memory (spec/20_memory.md): plain storage, stores over the words that
are fetched next and over the storing instruction itself, and the next word at the end of memory. -/

namespace Sys2Proof.Proofs

open Sys2Proof.Machine Sys2Proof.Safety

/-- Settles O39, by reading after writing. -/
theorem writeChangesTheAddressedWordOnly : Obligations.WriteChangesTheAddressedWordOnly :=
  fun s a v b => ⟨writeMem_readMem s a b v, rfl, fun _ => rfl⟩

/-! ### A store over the instruction that follows -/

theorem nwAt_advance (s : State) (n : Nat) :
    nwAt (s.advance n) = s.readMem (wrap16 (s.pc.toNat + (n + 1 : Nat))) := by
  simp only [nwAt, advance_readMem, advance_pc, wrap16_wrap16_add, Int.natCast_add, Int.add_assoc,
    Int.natCast_one]

/-- R43 for any two-word store: the word after the store is fetched as it was stored, and so is the one
after that. -/
theorem step_of_finishMem_two {s t : State} {a v : Word} (h : finishMem s a v 2 = .next t) :
    (a = wrap16 (s.pc.toNat + 2) → step t = exec (decode v (nwAt t)) t) ∧
      (a = wrap16 (s.pc.toNat + 3) → step t = exec (decode (t.readMem t.pc) v) t) := by
  cases h
  refine ⟨fun ha => ?_, fun ha => ?_⟩
  · have hw : ((s.writeMem a v).advance 2).readMem ((s.writeMem a v).advance 2).pc = v := by
      subst ha
      exact writeMem_readMem_same _ _ _
    rw [step_eq, hw]
  · have hnw : nwAt ((s.writeMem a v).advance 2) = v := by
      subst ha
      exact (nwAt_advance _ 2).trans (writeMem_readMem_same _ _ _)
    rw [step_eq, hnw]

/-- Settles O41: ST and STIO are two-word stores, at the next word and at the effective address. -/
theorem storeIsSeenByTheNextFetch : Obligations.StoreIsSeenByTheNextFetch :=
  ⟨fun _ _ _ _ h => step_of_finishMem_two h, fun _ _ _ _ _ h => step_of_finishMem_two h⟩

/-! ### The two-word instruction at the PC -/

/-- An operation runs as the instruction that the decoder makes of its fields and the next word. -/
theorem runsAs_of_decode (o : Op) (i : Reg → Reg → Reg → Word → Instr)
    (h : ∀ w nw, opOf w = o → decode w nw = i (fieldD w) (fieldA w) (fieldB w) nw) :
    RunsAs (opNumber o) fun s => i (dAt s) (aAt s) (bAt s) (nwAt s) := by
  intro s hs
  rw [step_eq, h _ _ (opOf_of_opcodeAt hs), fieldD_eq, fieldA_eq, fieldB_eq]
  rfl

theorem runsAs_li : RunsAs 2 fun s => .li (dAt s) (nwAt s) :=
  runsAs_of_decode .li (fun d _ _ nw => .li d nw) fun w nw h => by rw [decode, h]

theorem runsAs_ld : RunsAs 3 fun s => .ld (dAt s) (nwAt s) :=
  runsAs_of_decode .ld (fun d _ _ nw => .ld d nw) fun w nw h => by rw [decode, h]

theorem runsAs_ldio : RunsAs 5 fun s => .ldio (dAt s) (aAt s) (nwAt s) :=
  runsAs_of_decode .ldio (fun d a _ nw => .ldio d a nw) fun w nw h => by rw [decode, h]

theorem runsAs_stio : RunsAs 6 fun s => .stio (aAt s) (bAt s) (nwAt s) :=
  runsAs_of_decode .stio (fun _ a b nw => .stio a b nw) fun w nw h => by rw [decode, h]

theorem runsAs_jnz : RunsAs 16 fun s => .jnz (aAt s) (nwAt s) :=
  runsAs_of_decode .jnz (fun _ a _ nw => .jnz a nw) fun w nw h => by rw [decode, h]

theorem runsAs_jimm : RunsAs 17 fun s => .jimm (nwAt s) :=
  runsAs_of_decode .jimm (fun _ _ _ nw => .jimm nw) fun w nw h => by rw [decode, h]

theorem runsAs_addi : RunsAs 18 fun s => .addi (dAt s) (aAt s) (nwAt s) :=
  runsAs_of_decode .addi (fun d a _ nw => .addi d a nw) fun w nw h => by rw [decode, h]

theorem runsAs_st : RunsAs 19 fun s => .st (nwAt s) (aAt s) :=
  runsAs_of_decode .st (fun _ a _ nw => .st nw a) fun w nw h => by rw [decode, h]

theorem runsAs_jz : RunsAs 20 fun s => .jz (aAt s) (nwAt s) :=
  runsAs_of_decode .jz (fun _ a _ nw => .jz a nw) fun w nw h => by rw [decode, h]

theorem runsAs_jn : RunsAs 21 fun s => .jn (aAt s) (nwAt s) :=
  runsAs_of_decode .jn (fun _ a _ nw => .jn a nw) fun w nw h => by rw [decode, h]

/-- Settles O42: the store is of the words fetched from the old state, wherever its target lies. -/
theorem storeOverItselfDoesNotAffectTheInstruction :
    Obligations.StoreOverItselfDoesNotAffectTheInstruction :=
  ⟨fun s hs _ => ⟨_, runsAs_st s hs, finishMem_frame rfl⟩,
    fun s hs _ => ⟨_, runsAs_stio s hs, finishMem_frame rfl⟩⟩

/-! ### The next word at the end of memory -/

theorem condNotZero_iff (w : Word) : condNotZero w = true ↔ w ≠ 0 := by
  simp [condNotZero, ← BitVec.toNat_inj]

theorem condZero_iff (w : Word) : condZero w = true ↔ w = 0 := by
  simp [condZero, ← BitVec.toNat_inj]

theorem condNegative_iff (w : Word) : condNegative w = true ↔ 32768 ≤ w.toNat :=
  decide_eq_true_iff

theorem exists_step_eq_next (s : State) : ∃ t, step s = .next t := by
  obtain ⟨h, -⟩ | ⟨_, _, h, -⟩ | ⟨_, _, h, -⟩ | ⟨_, h, -⟩ :=
    exec_shape (decode s.fetchWord s.fetchNext) s <;> exact ⟨_, h⟩

theorem finishBranch_pc {s t : State} {taken : Bool} {target : Word}
    (h : finishBranch s taken target = .next t) :
    t.pc = if taken then target else wrap16 (s.pc.toNat + 2) := by
  cases taken <;> cases h <;> rfl

theorem pc_eq_of_pcPast {s t : State} {n : Nat} (h : PcPast s t n) :
    t.pc = wrap16 (s.pc.toNat + n) :=
  BitVec.eq_of_toNat_eq (h.trans (wrap16_add_toNat _ _).symm)

/-- A two-word operation that is no jump moves the PC past both words. -/
theorem pcPast_two_of_step {s t : State} (ht : step s = .next t)
    (hop : opcodeAt s ∈ [2, 3, 5, 6, 18, 19]) : PcPast s t 2 := by
  simp only [List.mem_cons, List.not_mem_nil, or_false] at hop
  obtain h | h | h | h | h | h := hop
  · exact (finishReg_frame ((runsAs_li s h).symm.trans ht)).2.1
  · exact (finishReg_frame ((runsAs_ld s h).symm.trans ht)).2.1
  · exact (finishReg_frame ((runsAs_ldio s h).symm.trans ht)).2.1
  · exact (finishMem_frame ((runsAs_stio s h).symm.trans ht)).2.1
  · exact (finishReg_frame ((runsAs_addi s h).symm.trans ht)).2.1
  · exact (finishMem_frame ((runsAs_st s h).symm.trans ht)).2.1

/-- R32 and R17 at the last two addresses: where the next word is, and where the PC goes past it. -/
theorem nextWord_wraps {s : State} {nw p : Word}
    (h : (s.pc.toNat = 65535 ∧ nw = s.readMem 0 ∧ p = 1) ∨
      (s.pc.toNat = 65534 ∧ nw = s.readMem 65535 ∧ p = 0)) :
    nw = nwAt s ∧ p = wrap16 (s.pc.toNat + 2) := by
  obtain ⟨hpc, rfl, rfl⟩ | ⟨hpc, rfl, rfl⟩ := h <;> rw [nwAt, hpc] <;> exact ⟨rfl, rfl⟩

/-- Settles O43: each operation uses the next word as everywhere else, and at the last two addresses
that word and the PC past it wrap. -/
theorem nextWordOfTheLastAddressIsAtZero : Obligations.NextWordOfTheLastAddressIsAtZero := by
  intro s nw p hend _
  obtain ⟨rfl, rfl⟩ := nextWord_wraps hend
  obtain ⟨t, ht⟩ := exists_step_eq_next s
  refine ⟨t, ht, fun h => ?li, fun h => ?ld, fun h => ?ldio, fun h => ?stio, fun h => ?jnz,
    fun h => ?jimm, fun h => ?addi, fun h => ?st, fun h => ?jz, fun h => ?jn,
    fun h => pc_eq_of_pcPast (pcPast_two_of_step ht h)⟩
  case li => exact (finishReg_frame ((runsAs_li s h).symm.trans ht)).1
  case ld => exact (finishReg_frame ((runsAs_ld s h).symm.trans ht)).1
  case ldio => exact (finishReg_frame ((runsAs_ldio s h).symm.trans ht)).1
  case stio => exact (finishMem_frame ((runsAs_stio s h).symm.trans ht)).1
  case jnz =>
    simpa only [condNotZero_iff] using finishBranch_pc ((runsAs_jnz s h).symm.trans ht)
  case jimm => exact (finishJump_frame ((runsAs_jimm s h).symm.trans ht)).1
  case addi => exact (finishReg_frame ((runsAs_addi s h).symm.trans ht)).1
  case st => exact (finishMem_frame ((runsAs_st s h).symm.trans ht)).1
  case jz => simpa only [condZero_iff] using finishBranch_pc ((runsAs_jz s h).symm.trans ht)
  case jn => simpa only [condNegative_iff] using finishBranch_pc ((runsAs_jn s h).symm.trans ht)

end Sys2Proof.Proofs
end

section
/-! PROOFS. The statements about the encoding of instructions (spec/30_encoding.md, sections 1 to 6): the
decoder and the encoder undo each other, and what of the words the decoder looks at. -/

namespace Sys2Proof.Proofs

open Sys2Proof.Machine Sys2Proof.Safety

/-! ### The encoder, then the decoder -/

theorem opOf_encodeWord (i : Instr) : opOf (encodeWord i) = i.op := by
  cases i <;> simp [encodeWord, Instr.op]

theorem length_encodeNext (i : Instr) : (encodeNext i).length = opNextWords i.op := by
  cases i <;> rfl

/-- Every field of an instruction is a used one, so the decoder finds it where the encoder put it. -/
theorem decode_encodeWord (i : Instr) (nw : Word) :
    decode (encodeWord i) ((encodeNext i).headD nw) = i := by
  cases i <;> simp [encodeWord, encodeNext, decode, opUses, opOperands]

/-- An instruction word followed by exactly the next words its opcode takes, and by any words. -/
theorem decodeWords_append {w : Word} {next : List Word} (h : next.length = opNextWords (opOf w))
    (rest : List Word) : decodeWords (w :: (next ++ rest)) = .ok (decode w (next.headD 0), rest) := by
  match next, h with
  | [], h => exact decodeWords_one h.symm rest
  | [nw], h => exact decodeWords_two h.symm nw rest
  | _ :: _ :: _, h =>
    simp only [List.length_cons, opNextWords] at h
    split at h <;> omega

/-- Settles O33: the opcode tells how many next words the encoding has, and the decoder takes those. -/
theorem decodeOfEncodeIsTheInstruction : Obligations.DecodeOfEncodeIsTheInstruction := by
  intro i rest
  have hlen : (encodeNext i).length = opNextWords (opOf (encodeWord i)) := by
    rw [opOf_encodeWord, length_encodeNext]
  rw [encode, List.cons_append, decodeWords_append hlen, decode_encodeWord]

theorem encode_injective : Function.Injective encode := by
  intro i j h
  have hi := decodeOfEncodeIsTheInstruction i []
  rw [h, decodeOfEncodeIsTheInstruction j []] at hi
  cases hi
  rfl

/-! ### The decoder, then the encoder -/

/-- The encoding of what any two words decode to: the canonical word of the first one's operation and
fields, and the second one where the operation takes it. -/
theorem encode_decode (w nw : Word) :
    encode (decode w nw) = canonicalWord (opOf w) (fieldD w) (fieldA w) (fieldB w) ::
      if opUses (opOf w) .addr then [nw] else [] := by
  unfold decode
  cases opOf w <;> simp [encode, encodeWord, encodeNext, canonicalWord, opUses, opOperands]

theorem length_eq_opNextWords_iff (o : Op) (next : List Word) :
    next.length = opNextWords o ↔ next = if opUses o .addr then [next.headD 0] else [] := by
  cases h : opUses o .addr with
  | false => simp [opNextWords, h]
  | true => cases next <;> simp [opNextWords, h]

/-- Settles O34: a canonical word is built from its own operation and fields. -/
theorem encodeOfDecodeIsTheCanonicalWords : Obligations.EncodeOfDecodeIsTheCanonicalWords := by
  intro ws hws
  cases ws with
  | nil => cases hws
  | cons w next =>
    simp only [wellFormed, rightLength, Bool.and_eq_true, beq_iff_eq] at hws
    obtain ⟨hcanon, hlen⟩ := hws
    have hdec := decodeWords_append hlen []
    rw [List.append_nil] at hdec
    refine ⟨decode w (next.headD 0), hdec, ?_⟩
    rw [encode_decode, ← canonicalWord_of_canonical hcanon,
      ← (length_eq_opNextWords_iff _ next).mp hlen]

/-! ### What the decoder looks at -/

theorem canonicalWord_congr {o : Op} {d d' a a' b b' : Reg} (hd : opUses o .dest = true → d = d')
    (ha : opUses o .srcA = true → a = a') (hb : opUses o .srcB = true → b = b') :
    canonicalWord o d a b = canonicalWord o d' a' b' := by
  rw [← BitVec.toNat_inj, canonicalWord_toNat, canonicalWord_toNat]
  split_ifs <;> simp_all

theorem opOf_congr {w w' : Word} (h : w.toNat % 32 = w'.toNat % 32) : opOf w = opOf w' := by
  rw [opOf_eq, opOf_eq, h]

/-- Settles O36: the two instructions have one encoding, which holds the used fields only. -/
theorem unusedFieldsAreIgnored : Obligations.UnusedFieldsAreIgnored := by
  intro w w' nw nw' hop hd ha hb hnw
  apply encode_injective
  rw [encode_decode, encode_decode, ← opOf_congr hop, canonicalWord_congr hd ha hb]
  split_ifs with haddr
  · rw [hnw haddr]
  · rfl

/-- Settles O35: the opcode and the three fields lie in the low 14 bits. -/
theorem spareBitsAreIgnored : Obligations.SpareBitsAreIgnored := by
  intro w w' nw h
  refine unusedFieldsAreIgnored w w' nw nw (by omega) (fun _ => ?_) (fun _ => ?_) (fun _ => ?_)
    fun _ => rfl
  · simp only [fieldD_eq, Fin.ext_iff, Fin.val_ofNat]; omega
  · simp only [fieldA_eq, Fin.ext_iff, Fin.val_ofNat]; omega
  · simp only [fieldB_eq, Fin.ext_iff, Fin.val_ofNat]; omega

/-- Two words always decode, and the opcode tells whether the second one is taken (30 R48). -/
theorem decodeWords_cons_cons (w nw : Word) (rest : List Word) :
    decodeWords (w :: nw :: rest) =
      .ok (decode w nw, if opUses (opOf w) .addr then rest else nw :: rest) := by
  cases h : opUses (opOf w) .addr with
  | false =>
    have hzero : opNextWords (opOf w) = 0 := by simp [opNextWords, h]
    rw [decodeWords_one hzero, decode_next hzero 0 nw]
    rfl
  | true =>
    have hone : opNextWords (opOf w) = 1 := by simp [opNextWords, h]
    rw [decodeWords_two hone]
    rfl

/-- R48's list of the operations that take a next word. -/
theorem opUses_addr_iff (o : Op) : opUses o .addr = true ↔
    o ∈ [.li, .ld, .ldio, .stio, .jnz, .jimm, .addi, .st, .jz, .jn] := by
  cases o <;> decide

/-- Settles O37: the second word is taken exactly by the operations of R48's list. -/
theorem lengthIsToldByTheOpcode : Obligations.LengthIsToldByTheOpcode := by
  intro w nw rest
  simp only [← opUses_addr_iff]
  exact ⟨decode w nw, decodeWords_cons_cons w nw rest⟩

/-- Settles O24: a step executes what its two words decode to. -/
theorem stepRunsTheDecodedInstruction : Obligations.StepRunsTheDecodedInstruction := by
  intro s
  refine ⟨⟨_, _, decodeWords_cons_cons _ _ _⟩, fun i rest h => ?_⟩
  rw [decodeWords_cons_cons] at h
  cases h
  exact step_eq s

end Sys2Proof.Proofs
end

section
/-! PROOFS. The statements about single operations of the assembler (spec/30_encoding.md R67 to R73): an
instruction line, the directives, and the resolution of label references. -/

namespace Sys2Proof.Proofs

open Sys2Proof.Machine

/-! ### Emitting words -/

/-- Words emitted from address `a` on, each with its address. -/
def placed (a : Nat) (es : List Emitted) : List (Nat × Emitted) := (es.zipIdx a).map Prod.swap

@[simp] theorem placed_nil (a : Nat) : placed a [] = [] := rfl

@[simp] theorem placed_cons (a : Nat) (e : Emitted) (es : List Emitted) :
    placed a (e :: es) = (a, e) :: placed (a + 1) es := by
  simp [placed]

@[simp] theorem length_placed (a : Nat) (es : List Emitted) : (placed a es).length = es.length := by
  simp [placed]

theorem map_fst_placed (a : Nat) (es : List Emitted) :
    (placed a es).map Prod.fst = List.range' a es.length := by
  rw [placed, List.map_map, ← List.zipIdx_map_snd]
  rfl

/-- Emitting places the words at the cursor and moves it past them, if it stays below 65536. -/
theorem emit_eq (line : Nat) (st : AsmState) {es : List Emitted} (hes : es ≠ []) :
    emit line st es =
      if st.cursor + es.length < Config.memWords then
        .ok { st with
          cursor := st.cursor + es.length, items := st.items ++ placed st.cursor es }
      else .error (.unspecified line .pastLastAddress) := by
  induction es generalizing st with
  | nil => exact absurd rfl hes
  | cons e es ih =>
    rw [emit]
    by_cases hne : es = []
    · subst hne
      rfl
    · rw [ih _ hne]
      have hlen : st.cursor + 1 + es.length = st.cursor + (e :: es).length := by
        simp only [List.length_cons]; omega
      simp only [hlen, placed_cons, List.append_assoc, List.singleton_append]
      split_ifs with h₁ h₂ h₂
      · rfl
      · rfl
      · simp only [List.length_cons] at h₂; omega
      · rfl

theorem emit_ok {line : Nat} {st st' : AsmState} {es : List Emitted} (hes : es ≠ [])
    (h : emit line st es = .ok st') :
    st.cursor + es.length < Config.memWords ∧ st' = { st with
      cursor := st.cursor + es.length, items := st.items ++ placed st.cursor es } := by
  rw [emit_eq line st hes] at h
  split at h
  · next hlt => exact ⟨hlt, (Except.ok.inj h).symm⟩
  · cases h

/-! ### The operands of an instruction line -/

/-- A register operand adds its number at its field's weight and emits nothing. -/
theorem asmOperand_reg {line : Nat} {r : Role} {t : List Char} {n : Nat} {es : List Emitted}
    (hr : r ≠ .addr) (h : asmOperand line r t = .ok (n, es)) :
    ∃ x : Reg, n = roleWeight r * x.val ∧ es = [] := by
  unfold asmOperand at h
  split at h
  · exact absurd rfl hr
  · split at h
    · cases h
      exact ⟨_, rfl, rfl⟩
    · split at h <;> cases h

/-- The address operand adds nothing and emits one word, or a reference if it is no number. -/
theorem asmOperand_addr {line : Nat} {t : List Char} {n : Nat} {es : List Emitted}
    (h : asmOperand line .addr t = .ok (n, es)) :
    n = 0 ∧ ((∃ w, es = [.word w] ∧ parseNumber t ≠ none) ∨
      (es = [.label t line] ∧ parseNumber t = none)) := by
  simp only [asmOperand] at h
  split at h
  · next hv =>
    split at h <;> cases h
    exact ⟨rfl, .inl ⟨_, rfl, by simp [hv]⟩⟩
  · next hv =>
    split at h <;> cases h
    exact ⟨rfl, .inr ⟨rfl, hv⟩⟩

/-- Operands that assemble do so one by one. -/
theorem asmOperands_cons {line : Nat} {r : Role} {rs : List Role} {t : List Char}
    {ts : List (List Char)} {n : Nat} {es : List Emitted}
    (h : asmOperands line (r :: rs) (t :: ts) = .ok (n, es)) :
    ∃ n₁ es₁ n₂ es₂, asmOperand line r t = .ok (n₁, es₁) ∧ asmOperands line rs ts = .ok (n₂, es₂) ∧
      n = n₁ + n₂ ∧ es = es₁ ++ es₂ := by
  simp only [asmOperands] at h
  split at h
  · cases h
  · next n₁ es₁ h₁ =>
    split at h
    · cases h
    · next n₂ es₂ h₂ =>
      cases h
      exact ⟨n₁, es₁, n₂, es₂, h₁, h₂, rfl, rfl⟩

/-- The fields that register operands fill, put at their weights. -/
def fieldSum (f : Role → Reg) (rs : List Role) : Nat := (rs.map fun r => roleWeight r * (f r).val).sum

@[simp] theorem fieldSum_nil (f : Role → Reg) : fieldSum f [] = 0 := rfl

@[simp] theorem fieldSum_cons (f : Role → Reg) (r : Role) (rs : List Role) :
    fieldSum f (r :: rs) = roleWeight r * (f r).val + fieldSum f rs := by
  simp [fieldSum]

theorem fieldSum_update (f : Role → Reg) {r : Role} {rs : List Role} (hr : r ∉ rs) (x : Reg) :
    fieldSum (Function.update f r x) rs = fieldSum f rs := by
  refine congrArg List.sum (List.map_congr_left fun q hq => ?_)
  have hqr : q ≠ r := fun h => hr (h ▸ hq)
  rw [Function.update_of_ne hqr]

/-- What operands add to the instruction word is the sum of the fields they fill. -/
theorem asmOperands_fst {line : Nat} {rs : List Role} {ts : List (List Char)} {n : Nat}
    {es : List Emitted} (hrs : rs.Nodup) (hlen : ts.length = rs.length)
    (h : asmOperands line rs ts = .ok (n, es)) : ∃ f : Role → Reg, n = fieldSum f rs := by
  induction rs generalizing ts n es with
  | nil => cases h; exact ⟨fun _ => 0, rfl⟩
  | cons r rs ih =>
    obtain _ | ⟨t, ts⟩ := ts
    · cases hlen
    obtain ⟨hr, hrs⟩ := List.nodup_cons.mp hrs
    obtain ⟨n₁, es₁, n₂, es₂, h₁, h₂, rfl, rfl⟩ := asmOperands_cons h
    obtain ⟨f, rfl⟩ := ih hrs (Nat.succ.inj hlen) h₂
    by_cases haddr : r = .addr
    · subst haddr
      refine ⟨f, ?_⟩
      rw [(asmOperand_addr h₁).1, fieldSum_cons]
      simp [roleWeight]
    · obtain ⟨x, rfl, -⟩ := asmOperand_reg haddr h₁
      refine ⟨Function.update f r x, ?_⟩
      rw [fieldSum_cons, fieldSum_update f hr, Function.update_self]

theorem nodup_opOperands (o : Op) : (opOperands o).Nodup := by
  cases o <;> decide

theorem canonicalWord_eq_fieldSum (o : Op) (f : Role → Reg) :
    canonicalWord o (f .dest) (f .srcA) (f .srcB) =
      BitVec.ofNat 16 (2 ^ opLo * opNumber o + fieldSum f (opOperands o)) := by
  cases o <;> simp [canonicalWord, opUses, opOperands, roleWeight, Nat.add_assoc]

/-- One word or reference is emitted for each address operand. -/
theorem asmOperands_length {line : Nat} {rs : List Role} {ts : List (List Char)} {n : Nat}
    {es : List Emitted} (hlen : ts.length = rs.length) (h : asmOperands line rs ts = .ok (n, es)) :
    es.length = rs.count .addr := by
  induction rs generalizing ts n es with
  | nil => cases h; rfl
  | cons r rs ih =>
    obtain _ | ⟨t, ts⟩ := ts
    · cases hlen
    obtain ⟨n₁, es₁, n₂, es₂, h₁, h₂, rfl, rfl⟩ := asmOperands_cons h
    rw [List.length_append, ih (Nat.succ.inj hlen) h₂]
    by_cases haddr : r = .addr
    · subst haddr
      obtain ⟨-, ⟨w, rfl, -⟩ | ⟨rfl, -⟩⟩ := asmOperand_addr h₁ <;> simp [Nat.add_comm]
    · obtain ⟨x, -, rfl⟩ := asmOperand_reg haddr h₁
      simp [haddr]

theorem count_addr_opOperands (o : Op) : (opOperands o).count .addr = opNextWords o := by
  cases o <;> decide

theorem label_mem_asmOperand {line : Nat} {r : Role} {t : List Char} {n : Nat} {es : List Emitted}
    (h : asmOperand line r t = .ok (n, es)) (name : List Char) (m : Nat) :
    Emitted.label name m ∈ es ↔ m = line ∧ r = .addr ∧ t = name ∧ parseNumber name = none := by
  by_cases hr : r = .addr
  · subst hr
    obtain ⟨-, ⟨w, rfl, hnum⟩ | ⟨rfl, hnum⟩⟩ := asmOperand_addr h
    · simp only [List.mem_singleton, reduceCtorEq, false_iff]
      rintro ⟨-, -, rfl, hnone⟩
      exact hnum hnone
    · rw [List.mem_singleton, Emitted.label.injEq]
      constructor
      · rintro ⟨rfl, rfl⟩
        exact ⟨rfl, rfl, rfl, hnum⟩
      · rintro ⟨rfl, -, rfl, -⟩
        exact ⟨rfl, rfl⟩
  · obtain ⟨-, -, rfl⟩ := asmOperand_reg hr h
    simp [hr]

/-- The references emitted are the address operands that are no numbers (30 R72). -/
theorem label_mem_asmOperands {line : Nat} {rs : List Role} {ts : List (List Char)} {n : Nat}
    {es : List Emitted} (hlen : ts.length = rs.length) (h : asmOperands line rs ts = .ok (n, es))
    (name : List Char) (m : Nat) :
    Emitted.label name m ∈ es ↔ m = line ∧
      ∃ k : Nat, rs[k]? = some .addr ∧ ts[k]? = some name ∧ parseNumber name = none := by
  induction rs generalizing ts n es with
  | nil => cases h; simp
  | cons r rs ih =>
    obtain _ | ⟨t, ts⟩ := ts
    · cases hlen
    obtain ⟨n₁, es₁, n₂, es₂, h₁, h₂, rfl, rfl⟩ := asmOperands_cons h
    rw [List.mem_append, label_mem_asmOperand h₁, ih (Nat.succ.inj hlen) h₂, ← and_or_left]
    have hk := Nat.or_exists_add_one (p := fun k => (r :: rs)[k]? = some Role.addr ∧
      (t :: ts)[k]? = some name ∧ parseNumber name = none)
    simpa using fun _ => hk

/-- What an instruction line that assembles is, and what it emits (30 R56, R69). -/
structure InstructionLine (line : Nat) (mnemonic : List Char) (args : List (List Char)) (o : Op)
    (ts : List (List Char)) (n : Nat) (es : List Emitted) : Prop where
  mnemonic_eq : findMnemonic mnemonic = some o
  args_eq : separateOperands args = some ts
  length_eq : ts.length = (opOperands o).length
  operands_eq : asmOperands line (opOperands o) ts = .ok (n, es)

theorem asmInstruction_cases {line : Nat} {st st' : AsmState} {m : List Char}
    {args : List (List Char)} (h : asmInstruction line st m args = .ok st') :
    ∃ o ts n es, InstructionLine line m args o ts n es ∧
      emit line st (.word (BitVec.ofNat 16 (2 ^ opLo * opNumber o + n)) :: es) = .ok st' := by
  unfold asmInstruction at h
  split at h
  · cases h
  · next o ho =>
    split at h
    · cases h
    · next ts hts =>
      split at h
      · next hlen =>
        split at h
        · cases h
        · next n es hops => exact ⟨o, ts, n, es, ⟨ho, hts, hlen, hops⟩, h⟩
      · cases h

theorem opDefined_of_findMnemonic {m : List Char} {o : Op} (h : findMnemonic m = some o) :
    opDefined o = true :=
  (List.mem_filter.mp (List.mem_of_find?_eq_some h)).2

/-- Settles O52: the operands add up to the fields of a canonical word, and each address operand emits
one word. -/
theorem assembledInstructionsAreCanonical : Obligations.AssembledInstructionsAreCanonical := by
  intro line st st' m args h
  obtain ⟨o, ts, n, es, ⟨ho, -, hlen, hops⟩, hemit⟩ := asmInstruction_cases h
  obtain ⟨f, rfl⟩ := asmOperands_fst (nodup_opOperands o) hlen hops
  obtain ⟨-, rfl⟩ := emit_ok (List.cons_ne_nil _ _) hemit
  refine ⟨canonicalWord o (f .dest) (f .srcA) (f .srcB), placed (st.cursor + 1) es, ?_,
    canonical_canonicalWord _ _ _ _, ?_⟩
  · rw [placed_cons, canonicalWord_eq_fieldSum]
  · rw [opOf_canonicalWord, length_placed, asmOperands_length hlen hops, count_addr_opOperands]
    exact ⟨ho, opDefined_of_findMnemonic ho, rfl⟩

/-! ### The directives -/

theorem directiveNumber_of_parseNumber {t : List Char} {v : Int} (h : parseNumber t = some v)
    (line : Nat) : directiveNumber line [t] = .ok v := by
  simp [directiveNumber, h]

theorem asmOrg_of_number {line : Nat} {args : List (List Char)} {v : Int}
    (h : directiveNumber line args = .ok v) (st : AsmState) :
    asmOrg line st args =
      if v < st.cursor then .error (.diagnostic line .nonMonotonicOrg)
      else if v < Config.memWords then .ok { st with cursor := v.toNat }
      else .error (.unspecified line .pastLastAddress) := by
  simp [asmOrg, h]

theorem asmOrg_of_error {line : Nat} {args : List (List Char)} {e : AsmStop}
    (h : directiveNumber line args = .error e) (st : AsmState) : asmOrg line st args = .error e := by
  simp [asmOrg, h]

theorem asmVal_of_error {line : Nat} {args : List (List Char)} {e : AsmStop}
    (h : directiveNumber line args = .error e) (st : AsmState) : asmVal line st args = .error e := by
  simp [asmVal, h]

theorem asmVal_of_literal {line : Nat} {args : List (List Char)} {v : Int} {w : Word}
    (h : directiveNumber line args = .ok v) (hw : literalWord v = some w) (st : AsmState) :
    asmVal line st args = emit line st [.word w] := by
  simp [asmVal, h, hw]

theorem asmVal_of_out_of_range {line : Nat} {args : List (List Char)} {v : Int}
    (h : directiveNumber line args = .ok v) (hv : literalWord v = none) (st : AsmState) :
    asmVal line st args = .error (.diagnostic line .directiveArgumentError) := by
  simp [asmVal, h, hv]

/-- Settles O57, by the number the argument is, or the error it gives. -/
theorem orgMovesTheCursorForwardOnly : Obligations.OrgMovesTheCursorForwardOnly := by
  refine fun line st => ⟨fun n hn => ?_, fun n hn => ?_, rfl,
    fun name more hname => asmOrg_of_error (directiveNumber_labelName hname line more) st,
    fun t more ht => asmOrg_of_error (directiveNumber_noDigit ht line more) st⟩
  · have hnum := directiveNumber_of_parseNumber (parseNumber_decimalText n) line
    have hmem : (n : Int) < Config.memWords := by exact_mod_cast hn
    simp [asmOrg_of_number hnum, hmem]
  · have hnum := directiveNumber_of_parseNumber (parseNumber_neg_decimalText n) line
    rw [asmOrg_of_number hnum, if_pos (by omega)]

theorem literalWord_natCast {n : Nat} (hn : n < 65536) :
    literalWord (n : Int) = some (BitVec.ofNat 16 n) := by
  have h := literalWord_toNat (BitVec.ofNat 16 n)
  rwa [BitVec.toNat_ofNat, Nat.mod_eq_of_lt hn] at h

/-- A negative number stands for 65536 plus it (30 R74). -/
theorem literalWord_neg {n : Nat} (hpos : 0 < n) (hn : n ≤ 32768) :
    literalWord (-(n : Int)) = some (BitVec.ofNat 16 (65536 - n)) := by
  rw [literalWord, if_pos (by omega), Option.some.injEq, ← BitVec.toNat_inj, BitVec.toNat_ofNat]
  have := wrap16_toNat (-(n : Int))
  omega

theorem literalWord_eq_none {v : Int} (h : v < -32768 ∨ 65535 < v) : literalWord v = none :=
  if_neg (by omega)

theorem emit_word {line : Nat} {st : AsmState} (h : st.cursor < 65535) (w : Word) :
    emit line st [.word w] = .ok { st with
      cursor := st.cursor + 1, items := st.items ++ [(st.cursor, .word w)] } := by
  rw [emit_eq line st (List.cons_ne_nil _ _)]
  exact if_pos (Nat.succ_lt_succ h)

/-- Settles O58, by the word the argument's number stands for, or the error it gives. -/
theorem valEmitsOneWord : Obligations.ValEmitsOneWord := by
  refine fun line st => ⟨fun hst => ⟨fun n hn => ?_, fun n hpos hn => ?_⟩, fun n hn => ?_,
    fun n hn => ?_, rfl,
    fun name more hname => asmVal_of_error (directiveNumber_labelName hname line more) st,
    fun t more ht => asmVal_of_error (directiveNumber_noDigit ht line more) st⟩
  · have hnum := directiveNumber_of_parseNumber (parseNumber_decimalText n) line
    rw [asmVal_of_literal hnum (literalWord_natCast hn), emit_word hst]
  · have hnum := directiveNumber_of_parseNumber (parseNumber_neg_decimalText n) line
    rw [asmVal_of_literal hnum (literalWord_neg hpos hn), emit_word hst]
  · have hnum := directiveNumber_of_parseNumber (parseNumber_decimalText n) line
    exact asmVal_of_out_of_range hnum (literalWord_eq_none (by omega)) st
  · have hnum := directiveNumber_of_parseNumber (parseNumber_neg_decimalText n) line
    exact asmVal_of_out_of_range hnum (literalWord_eq_none (by omega)) st

/-! ### The resolution of label references -/

/-- `w` is the word of an emitted item: itself, or the address the table gives its label (30 R73). -/
def Resolves (labels : List (List Char × Nat)) (e : Emitted) (w : Word) : Prop :=
  match e with
  | .word v => w = v
  | .label name _ => ∃ t, labels.lookup name = some t ∧ w = BitVec.ofNat 16 t

theorem resolve_cons_ok {labels : List (List Char × Nat)} {a : Nat} {e : Emitted}
    {items : List (Nat × Emitted)} {image : Image} (h : resolve labels ((a, e) :: items) = .ok image) :
    ∃ w rest, Resolves labels e w ∧ resolve labels items = .ok rest ∧ image = (a, w) :: rest := by
  cases e with
  | word w =>
    simp only [resolve] at h
    cases hrest : resolve labels items <;> rw [hrest] at h <;> cases h
    exact ⟨w, _, rfl, rfl, rfl⟩
  | label name line =>
    simp only [resolve] at h
    split at h
    · cases h
    · next t ht =>
      cases hrest : resolve labels items <;> rw [hrest] at h <;> cases h
      exact ⟨_, _, ⟨t, ht, rfl⟩, rfl, rfl⟩

theorem resolve_ok {labels : List (List Char × Nat)} {items : List (Nat × Emitted)} {image : Image}
    (h : resolve labels items = .ok image) :
    image.map Prod.fst = items.map Prod.fst ∧
      ∀ a e, (a, e) ∈ items → ∃ w, Resolves labels e w ∧ (a, w) ∈ image := by
  induction items generalizing image with
  | nil => cases h; simp
  | cons item items ih =>
    obtain ⟨b, f⟩ := item
    obtain ⟨w, rest, hw, hrest, rfl⟩ := resolve_cons_ok h
    obtain ⟨hfst, hmem⟩ := ih hrest
    refine ⟨by simp [hfst], fun a e he => ?_⟩
    obtain heq | he := List.mem_cons.mp he
    · cases heq
      exact ⟨w, hw, List.mem_cons_self⟩
    · obtain ⟨v, hv, hav⟩ := hmem a e he
      exact ⟨v, hv, List.mem_cons_of_mem _ hav⟩

theorem resolve_cons_error {labels : List (List Char × Nat)} {a : Nat} {e : Emitted}
    {items : List (Nat × Emitted)} {stop : AsmStop}
    (h : resolve labels ((a, e) :: items) = .error stop) :
    resolve labels items = .error stop ∨ ∃ name line, e = .label name line ∧
      labels.lookup name = none ∧ stop = .diagnostic line .unresolvedLabel := by
  cases e with
  | word w =>
    simp only [resolve] at h
    cases hrest : resolve labels items <;> rw [hrest] at h <;> cases h
    exact .inl rfl
  | label name line =>
    simp only [resolve] at h
    split at h
    · next hlookup =>
      cases h
      exact .inr ⟨name, line, rfl, hlookup, rfl⟩
    · cases hrest : resolve labels items <;> rw [hrest] at h <;> cases h
      exact .inl rfl

/-- Resolution stops only at a reference whose label the table lacks. -/
theorem resolve_error {labels : List (List Char × Nat)} {items : List (Nat × Emitted)}
    {stop : AsmStop} (h : resolve labels items = .error stop) : ∃ a name line,
      (a, Emitted.label name line) ∈ items ∧ labels.lookup name = none ∧
        stop = .diagnostic line .unresolvedLabel := by
  induction items with
  | nil => cases h
  | cons item items ih =>
    obtain hrest | ⟨name, line, he, hlookup, hstop⟩ := resolve_cons_error h
    · obtain ⟨a, name, line, hmem, hlookup, hstop⟩ := ih hrest
      exact ⟨a, name, line, List.mem_cons_of_mem _ hmem, hlookup, hstop⟩
    · exact ⟨item.1, name, line, he ▸ List.mem_cons_self, hlookup, hstop⟩

/-- Settles O56, by induction on the items. -/
theorem resolveReplacesEachReferenceByItsTableEntry :
    Obligations.ResolveReplacesEachReferenceByItsTableEntry := by
  refine fun labels items => ⟨fun image h => ?_, fun e h => resolve_error h⟩
  obtain ⟨hfst, hmem⟩ := resolve_ok h
  refine ⟨hfst, fun a w hw => ?_, fun a name line hname => ?_⟩
  · obtain ⟨v, rfl, hv⟩ := hmem a _ hw
    exact hv
  · obtain ⟨v, ⟨t, ht, rfl⟩, hv⟩ := hmem a _ hname
    exact ⟨t, ht, hv⟩

end Sys2Proof.Proofs
end

section
/-! PROOFS. The statements about whole program texts (spec/30_encoding.md R65, R66, R72, R73): where the
text ends, that images are rising, and that labels resolve to the addresses of their lines. -/

namespace Sys2Proof.Proofs

open Sys2Proof.Machine Sys2Proof.Safety

/-- The lines of a program text (30 R65). -/
abbrev linesOf (source : List Char) : List (List Char) := splitAtChars (fun c => c == '\n') source

theorem assembleChars_of_lines {source : List Char} {st : AsmState}
    (h : asmLines 1 AsmState.start (linesOf source) = .ok st) :
    assembleChars source = resolve st.labels st.items := by
  simp [assembleChars, h]

theorem assembleChars_of_error {source : List Char} {stop : AsmStop}
    (h : asmLines 1 AsmState.start (linesOf source) = .error stop) :
    assembleChars source = .error stop := by
  simp [assembleChars, h]

theorem exists_lines_of_assembleChars {source : List Char} {image : Image}
    (h : assembleChars source = .ok image) :
    ∃ st, asmLines 1 AsmState.start (linesOf source) = .ok st ∧
      resolve st.labels st.items = .ok image := by
  cases hlines : asmLines 1 AsmState.start (linesOf source) with
  | error stop => rw [assembleChars_of_error hlines] at h; cases h
  | ok st => exact ⟨st, rfl, (assembleChars_of_lines hlines).symm.trans h⟩

/-! ### The end of the program text -/

theorem asmLines_append_blank {blank : List Char} (hblank : cleanLine blank = [])
    (before after : List (List Char)) (n : Nat) (st : AsmState) :
    asmLines n st (before ++ blank :: after) = asmLines n st before := by
  rw [← asmLines_takeWhile (before ++ _), ← asmLines_takeWhile before, List.takeWhile_append]
  split_ifs with h
  · have hbefore := (List.takeWhile_prefix fun l => decide (cleanLine l ≠ [])).eq_of_length h
    rw [List.takeWhile_cons_of_neg (by simp [hblank]), List.append_nil, hbefore]
  · rfl

theorem linesOf_append (source blank more : List Char) (hnl : '\n' ∉ blank) :
    linesOf (source ++ '\n' :: blank ++ '\n' :: more) = linesOf source ++ blank :: linesOf more := by
  have hblank : splitAtChars (fun c => c == '\n') blank = [blank] :=
    splitAtChars_none _ _ fun c hc => beq_eq_false_iff_ne.mpr fun h => hnl (h ▸ hc)
  rw [List.append_assoc, List.cons_append, linesOf, splitAtChars_append _ _ rfl,
    splitAtChars_append _ _ rfl, hblank, List.singleton_append]

/-- Settles O54: the blank line and what follows it are lines of their own, and no line from the blank
one on is assembled. -/
theorem textAfterABlankLineIsIgnored : Obligations.TextAfterABlankLineIsIgnored := by
  intro source blank more hnl hblank
  have hlines := asmLines_append_blank hblank (linesOf source) (linesOf more) 1 AsmState.start
  rw [← linesOf_append source blank more hnl] at hlines
  simp only [assembleChars, hlines]

/-! ### What one line does -/

theorem asmLine_label (line : Nat) (st : AsmState) (name : List Char) :
    asmLine line st (name ++ [':']) = asmLabel line st name := by
  simp [asmLine]

theorem asmLabel_ok {line : Nat} {st st' : AsmState} {name : List Char}
    (h : asmLabel line st name = .ok st') : st.labels.lookup name = none ∧
      st' = { st with labels := st.labels ++ [(name, st.cursor)] } := by
  rw [asmLabel] at h
  split_ifs at h with _ hlookup
  cases h
  exact ⟨Option.not_isSome_iff_eq_none.mp hlookup, rfl⟩

/-- A line with a mnemonic is an instruction line: no directive's name is one (30 R69). -/
theorem asmLine_instruction {line : Nat} {st : AsmState} {text m : List Char}
    {args : List (List Char)} {o : Op} (hcolon : text.getLast? ≠ some ':')
    (htokens : tokensOf text = m :: args) (ho : findMnemonic m = some o) :
    asmLine line st text = asmInstruction line st m args := by
  have horg : m ≠ ['.', 'o', 'r', 'g'] := by rintro rfl; cases ho
  have hval : m ≠ ['.', 'v', 'a', 'l'] := by rintro rfl; cases ho
  simp only [asmLine, if_neg hcolon, htokens, if_neg horg, if_neg hval]

/-- A line that assembles defines a label at the cursor, moves the cursor forward, emits one word, or is
an instruction line. -/
theorem asmLine_cases {line : Nat} {st st' : AsmState} {text : List Char}
    (h : asmLine line st text = .ok st') :
    (∃ name, text = name ++ [':'] ∧ st.labels.lookup name = none ∧
      st' = { st with labels := st.labels ++ [(name, st.cursor)] }) ∨
    (∃ c, st.cursor ≤ c ∧ (st.cursor < Config.memWords → c < Config.memWords) ∧
      st' = { st with cursor := c }) ∨
    (∃ w, emit line st [.word w] = .ok st') ∨
    (text.getLast? ≠ some ':' ∧
      ∃ m args, tokensOf text = m :: args ∧ asmInstruction line st m args = .ok st') := by
  unfold asmLine at h
  split at h
  · next hcolon =>
    obtain ⟨name, rfl⟩ := List.getLast?_eq_some_iff.mp hcolon
    rw [List.dropLast_concat] at h
    exact .inl ⟨name, rfl, asmLabel_ok h⟩
  · next hcolon =>
    split at h
    · cases h
      exact .inr (.inl ⟨_, le_rfl, id, rfl⟩)
    · next m args htokens =>
      split_ifs at h
      · cases hv : directiveNumber line args with
        | error e => rw [asmOrg_of_error hv] at h; cases h
        | ok v =>
          rw [asmOrg_of_number hv] at h
          split_ifs at h with hlow hhigh
          cases h
          exact .inr (.inl ⟨v.toNat, by omega, fun _ => by omega, rfl⟩)
      · cases hv : directiveNumber line args with
        | error e => rw [asmVal_of_error hv] at h; cases h
        | ok v =>
          cases hw : literalWord v with
          | none => rw [asmVal_of_out_of_range hv hw] at h; cases h
          | some w => exact .inr (.inr (.inl ⟨w, asmVal_of_literal hv hw st ▸ h⟩))
      · exact .inr (.inr (.inr ⟨hcolon, m, args, htokens, h⟩))

/-- A line only adds to what is emitted and to what is defined. -/
theorem asmLine_prefix {line : Nat} {st st' : AsmState} {text : List Char}
    (h : asmLine line st text = .ok st') : st.items <+: st'.items ∧ st.labels <+: st'.labels := by
  obtain ⟨name, -, -, rfl⟩ | ⟨c, -, -, rfl⟩ | ⟨w, hemit⟩ | ⟨-, m, args, -, hinstr⟩ :=
    asmLine_cases h
  · exact ⟨List.prefix_rfl, List.prefix_append _ _⟩
  · exact ⟨List.prefix_rfl, List.prefix_rfl⟩
  · obtain ⟨-, rfl⟩ := emit_ok (List.cons_ne_nil _ _) hemit
    exact ⟨List.prefix_append _ _, List.prefix_rfl⟩
  · obtain ⟨o, ts, n, es, -, hemit⟩ := asmInstruction_cases hinstr
    obtain ⟨-, rfl⟩ := emit_ok (List.cons_ne_nil _ _) hemit
    exact ⟨List.prefix_append _ _, List.prefix_rfl⟩

/-! ### What the lines do -/

/-- Going through `ls` from line `n` and the state `st`, the assembler comes to the line `line`, after
the lines `before`, in the state `st'`. -/
def Reaches (n : Nat) (st : AsmState) (ls before : List (List Char)) (line : List Char)
    (st' : AsmState) : Prop :=
  (∃ after, ls = before ++ line :: after) ∧ (∀ l ∈ before ++ [line], cleanLine l ≠ []) ∧
    asmLines n st before = .ok st'

theorem Reaches.cons {n : Nat} {st st' st₁ : AsmState} {ls before : List (List Char)}
    {line l : List Char} (hl : cleanLine l ≠ []) (h₁ : asmLine n st (cleanLine l) = .ok st₁)
    (h : Reaches (n + 1) st₁ ls before line st') : Reaches n st (l :: ls) (l :: before) line st' := by
  obtain ⟨⟨after, rfl⟩, hclean, hbefore⟩ := h
  refine ⟨⟨after, rfl⟩, List.forall_mem_cons.mpr ⟨hl, hclean⟩, ?_⟩
  rw [asmLines, if_neg hl, h₁]
  exact hbefore

/-- What holds after the lines and not before them begins to hold at a line. -/
theorem exists_reaches_of_asmLines {P : AsmState → Prop} {n : Nat} {st st' : AsmState}
    {ls : List (List Char)} (h : asmLines n st ls = .ok st') (hst : ¬P st) (hst' : P st') :
    ∃ before line st₁ st₂, Reaches n st ls before line st₁ ∧
      asmLine (n + before.length) st₁ (cleanLine line) = .ok st₂ ∧ ¬P st₁ ∧ P st₂ := by
  induction ls generalizing n st with
  | nil => cases h; exact absurd hst' hst
  | cons l ls ih =>
    rw [asmLines] at h
    split_ifs at h with hl
    · cases h; exact absurd hst' hst
    · split at h
      · cases h
      · next st₁ h₁ =>
        by_cases hP : P st₁
        · exact ⟨[], l, st, st₁, ⟨⟨ls, rfl⟩, by simpa using hl, rfl⟩, h₁, hst, hP⟩
        · obtain ⟨before, line, st₂, st₃, hreach, hline, h₂, h₃⟩ := ih h hP
          refine ⟨l :: before, line, st₂, st₃, hreach.cons hl h₁, ?_, h₂, h₃⟩
          rwa [List.length_cons, Nat.add_comm before.length, ← Nat.add_assoc]

/-- What every line keeps, the lines keep. -/
theorem asmLines_induction {P : AsmState → Prop} {n : Nat} {st st' : AsmState}
    {ls : List (List Char)}
    (hstep : ∀ line text st₁ st₂, asmLine line st₁ text = .ok st₂ → P st₁ → P st₂) (hst : P st)
    (h : asmLines n st ls = .ok st') : P st' := by
  by_contra hst'
  obtain ⟨_, _, _, _, -, hline, h₁, h₂⟩ :=
    exists_reaches_of_asmLines (P := fun s => ¬P s) h (not_not_intro hst) hst'
  exact h₂ (hstep _ _ _ _ hline (not_not.mp h₁))

/-- A line that is reached is assembled, and what it emits and defines is kept. -/
theorem Reaches.asmLine {n : Nat} {st st₁ st' : AsmState} {ls before : List (List Char)}
    {line : List Char} (hreach : Reaches n st ls before line st₁) (h : asmLines n st ls = .ok st') :
    ∃ st₂, asmLine (n + before.length) st₁ (cleanLine line) = .ok st₂ ∧
      st₂.items <+: st'.items ∧ st₂.labels <+: st'.labels := by
  obtain ⟨⟨after, rfl⟩, hclean, hbefore⟩ := hreach
  obtain ⟨hbeforeClean, hline⟩ := List.forall_mem_append.mp hclean
  rw [asmLines_append _ _ hbeforeClean, hbefore] at h
  simp only [asmLines, if_neg (hline line (by simp))] at h
  split at h
  · cases h
  · next st₂ h₂ =>
    refine ⟨st₂, h₂, asmLines_induction
      (P := fun s => st₂.items <+: s.items ∧ st₂.labels <+: s.labels) (fun _ _ s t hst hs => ?_)
      ⟨List.prefix_rfl, List.prefix_rfl⟩ h⟩
    obtain ⟨hitems, hlabels⟩ := asmLine_prefix hst
    exact ⟨hs.1.trans hitems, hs.2.trans hlabels⟩

/-! ### Rising addresses -/

/-- The addresses emitted so far strictly rise and lie below the cursor, which lies in memory. -/
structure Rising (st : AsmState) : Prop where
  pairwise : (st.items.map Prod.fst).Pairwise (· < ·)
  lt_cursor : ∀ a ∈ st.items.map Prod.fst, a < st.cursor
  cursor_lt : st.cursor < Config.memWords

theorem Rising.start : Rising AsmState.start := ⟨List.Pairwise.nil, by simp [AsmState.start], by decide⟩

theorem Rising.emit {line : Nat} {st st' : AsmState} {es : List Emitted} (hst : Rising st)
    (hes : es ≠ []) (h : emit line st es = .ok st') : Rising st' := by
  obtain ⟨hlt, rfl⟩ := emit_ok hes h
  refine ⟨?_, ?_, hlt⟩
  · rw [List.map_append, map_fst_placed, List.pairwise_append]
    refine ⟨hst.pairwise, List.pairwise_lt_range' 1, fun a ha b hb => ?_⟩
    exact (hst.lt_cursor a ha).trans_le (List.left_le_of_mem_range' hb)
  · rw [List.map_append, map_fst_placed]
    intro a ha
    obtain ha | ha := List.mem_append.mp ha
    · exact (hst.lt_cursor a ha).trans_le (Nat.le_add_right _ _)
    · exact (List.mem_range'_1.mp ha).2

theorem Rising.asmLine {line : Nat} {st st' : AsmState} {text : List Char}
    (h : asmLine line st text = .ok st') (hst : Rising st) : Rising st' := by
  obtain ⟨name, -, -, rfl⟩ | ⟨c, hle, hlt, rfl⟩ | ⟨w, hemit⟩ | ⟨-, m, args, -, hinstr⟩ :=
    asmLine_cases h
  · exact ⟨hst.pairwise, hst.lt_cursor, hst.cursor_lt⟩
  · exact ⟨hst.pairwise, fun a ha => (hst.lt_cursor a ha).trans_le hle, hlt hst.cursor_lt⟩
  · exact hst.emit (List.cons_ne_nil _ _) hemit
  · obtain ⟨o, ts, n, es, -, hemit⟩ := asmInstruction_cases hinstr
    exact hst.emit (List.cons_ne_nil _ _) hemit

theorem Rising.asmLines {n : Nat} {ls : List (List Char)} {st : AsmState}
    (h : asmLines n AsmState.start ls = .ok st) : Rising st :=
  asmLines_induction (fun _ _ _ _ => Rising.asmLine) Rising.start h

/-- Settles O51: every line keeps the addresses rising, and resolution keeps the addresses. -/
theorem assembledImagesNameEachAddressOnce : Obligations.AssembledImagesNameEachAddressOnce := by
  intro source image h
  obtain ⟨st, hlines, hresolve⟩ := exists_lines_of_assembleChars h
  have hst := Rising.asmLines hlines
  have hfst := (resolve_ok hresolve).1
  refine ⟨hfst ▸ hst.pairwise, fun c hc => ?_⟩
  have hmem : c.1 ∈ st.items.map Prod.fst := hfst ▸ List.mem_map_of_mem hc
  exact (hst.lt_cursor _ hmem).trans hst.cursor_lt

/-! ### Labels -/

/-- A label added to the table is the one its line defines. -/
theorem lookup_append_singleton {labels : List (List Char × Nat)} {name name' : List Char}
    {c t : Nat} (hnot : labels.lookup name ≠ some t)
    (h : (labels ++ [(name', c)]).lookup name = some t) : name' = name ∧ c = t := by
  rw [List.lookup_append] at h
  cases hlookup : labels.lookup name with
  | some u =>
    rw [hlookup] at h hnot
    exact absurd h hnot
  | none =>
    rw [hlookup, Option.none_or, List.lookup_cons] at h
    split at h
    · next heq =>
      cases h
      exact ⟨(eq_of_beq heq).symm, rfl⟩
    · cases h

/-- An instruction line emits a reference at most at its next word (30 R56, R72). -/
theorem InstructionLine.label_mem_placed {line : Nat} {m : List Char} {args : List (List Char)}
    {o : Op} {ts : List (List Char)} {n : Nat} {es : List Emitted}
    (h : InstructionLine line m args o ts n es) (w : Word) (c a q : Nat) (name : List Char) :
    (a, Emitted.label name q) ∈ placed c (.word w :: es) ↔ a = c + 1 ∧ q = line ∧
      ∃ k : Nat, (opOperands o)[k]? = some .addr ∧ ts[k]? = some name ∧ parseNumber name = none := by
  have hle : es.length ≤ 1 := by
    rw [asmOperands_length h.length_eq h.operands_eq, count_addr_opOperands, opNextWords]
    split <;> omega
  rw [← label_mem_asmOperands h.length_eq h.operands_eq]
  match es, hle with
  | [], _ => simp
  | [e], _ => simp [eq_comm]

theorem lt_of_definesLabel {source name : List Char} {t : Nat} (ht : DefinesLabel source name t) :
    t < 65536 := by
  obtain ⟨before, line, st₁, ⟨-, -, hbefore⟩, -, rfl⟩ := ht
  exact (Rising.asmLines hbefore).cursor_lt

section
variable {source : List Char} {st : AsmState}
  (h : asmLines 1 AsmState.start (linesOf source) = .ok st)
include h

/-- The table of labels after the last line holds exactly the label lines, each with the cursor the
assembler came to it with. -/
theorem definesLabel_iff (name : List Char) (t : Nat) :
    DefinesLabel source name t ↔ st.labels.lookup name = some t := by
  constructor
  · rintro ⟨before, line, st₁, hreach, hline, rfl⟩
    obtain ⟨st₂, hst₂, -, hlabels⟩ := Reaches.asmLine (ls := linesOf source) hreach h
    rw [hline, asmLine_label] at hst₂
    obtain ⟨hlookup, rfl⟩ := asmLabel_ok hst₂
    exact hlabels.lookup_eq_some (by simp [List.lookup_append, hlookup])
  · intro ht
    obtain ⟨before, line, st₁, st₂, hreach, hline, h₁, h₂⟩ :=
      exists_reaches_of_asmLines (P := fun s => s.labels.lookup name = some t) h
        (by simp [AsmState.start]) ht
    obtain ⟨name', htext, -, rfl⟩ | ⟨c, -, -, rfl⟩ | ⟨w, hemit⟩ | ⟨-, m, args, -, hinstr⟩ :=
      asmLine_cases hline
    · obtain ⟨rfl, rfl⟩ := lookup_append_singleton h₁ h₂
      exact ⟨before, line, st₁, hreach, htext, rfl⟩
    · exact absurd h₂ h₁
    · obtain ⟨-, rfl⟩ := emit_ok (List.cons_ne_nil _ _) hemit
      exact absurd h₂ h₁
    · obtain ⟨o, ts, n, es, -, hemit⟩ := asmInstruction_cases hinstr
      obtain ⟨-, rfl⟩ := emit_ok (List.cons_ne_nil _ _) hemit
      exact absurd h₂ h₁

/-- The references emitted by the last line are exactly the address operands that are no numbers, each
at the next word of its instruction. -/
theorem namesLabel_iff (name : List Char) (n a : Nat) :
    NamesLabel source name n a ↔ (a, Emitted.label name n) ∈ st.items := by
  constructor
  · rintro ⟨before, line, st₁, m, args, o, ts, k, hreach, rfl, rfl, hcolon, htokens, ho, hts, hk⟩
    obtain ⟨st₂, hst₂, hitems, -⟩ := Reaches.asmLine (ls := linesOf source) hreach h
    rw [asmLine_instruction hcolon htokens ho] at hst₂
    obtain ⟨o', ts', n', es, hinstr, hemit⟩ := asmInstruction_cases hst₂
    obtain rfl : o = o' := Option.some.inj (ho.symm.trans hinstr.mnemonic_eq)
    obtain rfl : ts = ts' := Option.some.inj (hts.symm.trans hinstr.args_eq)
    obtain ⟨-, rfl⟩ := emit_ok (List.cons_ne_nil _ _) hemit
    refine hitems.mem (List.mem_append_right _ ?_)
    exact (hinstr.label_mem_placed ..).mpr ⟨rfl, Nat.add_comm _ _, k, hk⟩
  · intro hmem
    obtain ⟨before, line, st₁, st₂, hreach, hline, h₁, h₂⟩ :=
      exists_reaches_of_asmLines (P := fun s => (a, Emitted.label name n) ∈ s.items) h
        (by simp [AsmState.start]) hmem
    obtain ⟨name', -, -, rfl⟩ | ⟨c, -, -, rfl⟩ | ⟨w, hemit⟩ | ⟨hcolon, m, args, htokens, hst₂⟩ :=
      asmLine_cases hline
    · exact absurd h₂ h₁
    · exact absurd h₂ h₁
    · obtain ⟨-, rfl⟩ := emit_ok (List.cons_ne_nil _ _) hemit
      simp [h₁] at h₂
    · obtain ⟨o, ts, n', es, hinstr, hemit⟩ := asmInstruction_cases hst₂
      obtain ⟨-, rfl⟩ := emit_ok (List.cons_ne_nil _ _) hemit
      obtain ⟨rfl, rfl, k, hk⟩ :=
        (hinstr.label_mem_placed ..).mp ((List.mem_append.mp h₂).resolve_left h₁)
      exact ⟨before, line, st₁, m, args, o, ts, k, hreach, Nat.add_comm _ _, rfl, hcolon, htokens,
        hinstr.mnemonic_eq, hinstr.args_eq, hk⟩

/-- Resolution stops exactly where a label is named and not defined. -/
theorem unresolved_of_resolve_error {stop : AsmStop}
    (hresolve : resolve st.labels st.items = .error stop) :
    ∃ name n a, NamesLabel source name n a ∧ (∀ t, ¬DefinesLabel source name t) ∧
      stop = .diagnostic n .unresolvedLabel := by
  obtain ⟨a, name, n, hmem, hlookup, hstop⟩ := resolve_error hresolve
  refine ⟨name, n, a, (namesLabel_iff h name n a).mpr hmem, fun t ht => ?_, hstop⟩
  rw [definesLabel_iff h, hlookup] at ht
  cases ht

theorem exists_definesLabel_of_resolve_ok {image : Image}
    (hresolve : resolve st.labels st.items = .ok image) {name : List Char} {n a : Nat}
    (hname : NamesLabel source name n a) :
    ∃ t, DefinesLabel source name t ∧ (a, BitVec.ofNat 16 t) ∈ image := by
  obtain ⟨w, ⟨t, ht, rfl⟩, hw⟩ :=
    (resolve_ok hresolve).2 a _ ((namesLabel_iff h name n a).mp hname)
  exact ⟨t, (definesLabel_iff h name t).mpr ht, hw⟩

theorem definesLabel_unique {name : List Char} {t t' : Nat} (ht : DefinesLabel source name t)
    (ht' : DefinesLabel source name t') : t = t' := by
  rw [definesLabel_iff h] at ht ht'
  exact Option.some.inj (ht.symm.trans ht')

end

/-! ### Only resolution answers `UnresolvedLabel` (30 R73) -/

/-- What hands on the errors of `x` gives no error that `x` does not. -/
theorem error_ne_of_ne {α β : Type} {x : Except AsmStop α} {e stop : AsmStop} (hx : x ≠ .error stop)
    (he : x = .error e) : (.error e : Except AsmStop β) ≠ .error stop :=
  fun h => hx (he.trans (congrArg Except.error (Except.error.inj h)))

section
variable (n line : Nat) (st : AsmState)

theorem emit_ne_unresolvedLabel {es : List Emitted} (hes : es ≠ []) :
    emit line st es ≠ .error (.diagnostic n .unresolvedLabel) := by
  rw [emit_eq line st hes]
  split <;> simp

theorem asmOperand_ne_unresolvedLabel (r : Role) (t : List Char) :
    asmOperand line r t ≠ .error (.diagnostic n .unresolvedLabel) := by
  unfold asmOperand
  split
  · split
    · split <;> simp
    · split <;> simp
  · split
    · simp
    · split <;> simp

theorem asmOperands_ne_unresolvedLabel (rs : List Role) (ts : List (List Char)) :
    asmOperands line rs ts ≠ .error (.diagnostic n .unresolvedLabel) := by
  induction rs generalizing ts with
  | nil => simp [asmOperands]
  | cons r rs ih =>
    cases ts with
    | nil => simp [asmOperands]
    | cons t ts =>
      rw [asmOperands]
      split
      · next he => exact error_ne_of_ne (asmOperand_ne_unresolvedLabel n line r t) he
      · split
        · next he => exact error_ne_of_ne (ih ts) he
        · simp

theorem asmInstruction_ne_unresolvedLabel (m : List Char) (args : List (List Char)) :
    asmInstruction line st m args ≠ .error (.diagnostic n .unresolvedLabel) := by
  unfold asmInstruction
  split
  · simp
  · split
    · simp
    · split
      · split
        · next he => exact error_ne_of_ne (asmOperands_ne_unresolvedLabel n line _ _) he
        · exact emit_ne_unresolvedLabel n line st (List.cons_ne_nil _ _)
      · simp

theorem directiveNumber_ne_unresolvedLabel (args : List (List Char)) :
    directiveNumber line args ≠ .error (.diagnostic n .unresolvedLabel) := by
  unfold directiveNumber
  split
  · simp
  · split
    · split <;> simp
    · split <;> simp

theorem asmOrg_ne_unresolvedLabel (args : List (List Char)) :
    asmOrg line st args ≠ .error (.diagnostic n .unresolvedLabel) := by
  cases hv : directiveNumber line args with
  | error e =>
    rw [asmOrg_of_error hv]
    exact error_ne_of_ne (directiveNumber_ne_unresolvedLabel n line args) hv
  | ok v =>
    rw [asmOrg_of_number hv]
    split
    · simp
    · split <;> simp

theorem asmVal_ne_unresolvedLabel (args : List (List Char)) :
    asmVal line st args ≠ .error (.diagnostic n .unresolvedLabel) := by
  cases hv : directiveNumber line args with
  | error e =>
    rw [asmVal_of_error hv]
    exact error_ne_of_ne (directiveNumber_ne_unresolvedLabel n line args) hv
  | ok v =>
    cases hw : literalWord v with
    | none => simp [asmVal_of_out_of_range hv hw]
    | some w =>
      rw [asmVal_of_literal hv hw]
      exact emit_ne_unresolvedLabel n line st (List.cons_ne_nil _ _)

theorem asmLabel_ne_unresolvedLabel (name : List Char) :
    asmLabel line st name ≠ .error (.diagnostic n .unresolvedLabel) := by
  unfold asmLabel
  split
  · split <;> simp
  · simp

theorem asmLine_ne_unresolvedLabel (text : List Char) :
    asmLine line st text ≠ .error (.diagnostic n .unresolvedLabel) := by
  unfold asmLine
  split
  · exact asmLabel_ne_unresolvedLabel n line st _
  · split
    · simp
    · split_ifs
      · exact asmOrg_ne_unresolvedLabel n line st _
      · exact asmVal_ne_unresolvedLabel n line st _
      · exact asmInstruction_ne_unresolvedLabel n line st _ _

theorem asmLines_ne_unresolvedLabel (ls : List (List Char)) :
    asmLines line st ls ≠ .error (.diagnostic n .unresolvedLabel) := by
  induction ls generalizing line st with
  | nil => simp [asmLines]
  | cons l ls ih =>
    rw [asmLines]
    split
    · simp
    · split
      · next he => exact error_ne_of_ne (asmLine_ne_unresolvedLabel n line st _) he
      · exact ih _ _

end

/-! ### Labels resolve -/

/-- Settles O53: after the last line the table is that of the label lines and the references are those
of the instruction lines, so resolution gives each its label line's address, or finds one without. -/
theorem labelsResolveToTheirAddresses : Obligations.LabelsResolveToTheirAddresses := by
  refine fun source => ⟨fun image himage name n a hname => ?_, fun n hn => ?_, ?_⟩
  · obtain ⟨st, hlines, hresolve⟩ := exists_lines_of_assembleChars himage
    obtain ⟨t, ht, hmem⟩ := exists_definesLabel_of_resolve_ok hlines hresolve hname
    refine ⟨⟨t, ht⟩, fun t' ht' => ⟨lt_of_definesLabel ht', ?_⟩⟩
    rwa [definesLabel_unique hlines ht' ht]
  · cases hlines : asmLines 1 AsmState.start (linesOf source) with
    | error stop =>
      rw [assembleChars_of_error hlines] at hn
      exact absurd hn (error_ne_of_ne (asmLines_ne_unresolvedLabel n 1 _ _) hlines)
    | ok st =>
      rw [assembleChars_of_lines hlines] at hn
      obtain ⟨name, m, a, hname, hdef, heq⟩ := unresolved_of_resolve_error hlines hn
      cases heq
      exact ⟨name, a, hname, hdef⟩
  · rintro ⟨st, hlines⟩ ⟨name, n, a, hname, hdef⟩
    rw [assembleChars_of_lines hlines]
    cases hresolve : resolve st.labels st.items with
    | ok image =>
      obtain ⟨t, ht, -⟩ := exists_definesLabel_of_resolve_ok hlines hresolve hname
      exact absurd ht (hdef t)
    | error stop =>
      obtain ⟨-, m, -, -, -, rfl⟩ := unresolved_of_resolve_error hlines hresolve
      exact ⟨m, rfl⟩

end Sys2Proof.Proofs
end

section
/-! PROOFS. The disassembler's text, assembled (spec/30_encoding.md R78, R79): it is one line of the
assembler's form, whose tokens are the mnemonic and the operands, and these give the words back. -/

namespace Sys2Proof.Proofs

open Sys2Proof.Machine

/-! ### Plain words -/

/-- A letter or a digit, so no blank and no mark of the assembler's language. -/
def isPlain (c : Char) : Bool := isLetterChar c || isDigitChar c

/-- A token of letters and digits. -/
structure PlainWord (t : List Char) : Prop where
  ne_nil : t ≠ []
  plain : ∀ c ∈ t, isPlain c = true

theorem ne_of_isPlain {c x : Char} (hc : isPlain c = true) (hx : isPlain x = false) : c ≠ x := by
  rintro rfl
  rw [hc] at hx
  cases hx

theorem not_isBlank_of_isPlain {c : Char} (hc : isPlain c = true) : isBlank c = false := by
  simp [isBlank, ne_of_isPlain hc (show isPlain ' ' = false by decide),
    ne_of_isPlain hc (show isPlain '\t' = false by decide),
    ne_of_isPlain hc (show isPlain '\r' = false by decide)]

theorem PlainWord.comma_notMem {t : List Char} (ht : PlainWord t) : ',' ∉ t := fun h =>
  ne_of_isPlain (ht.plain _ h) (by decide) rfl

theorem PlainWord.notBlank {t : List Char} (ht : PlainWord t) : ∀ c ∈ t, isBlank c = false :=
  fun c hc => not_isBlank_of_isPlain (ht.plain c hc)

theorem plainWord_opName {o : Op} (ho : opDefined o = true) : PlainWord (opName o) := by
  cases o with
  | invalid22 | invalid23 | invalid24 | invalid25 | invalid26 | invalid27 | invalid28 | invalid29
  | invalid30 | invalid31 => cases ho
  | _ => exact ⟨List.cons_ne_nil _ _, List.all_eq_true.mp rfl⟩

theorem plainWord_decimalText (n : Nat) : PlainWord (decimalText n) :=
  ⟨decimalText_ne_nil n, fun c hc => by rw [isPlain, decimalText_isDigit n c hc, Bool.or_true]⟩

theorem plainWord_regText (r : Reg) : PlainWord (regText r) :=
  ⟨List.cons_ne_nil _ _,
    List.forall_mem_cons.mpr ⟨by decide, (plainWord_decimalText r.val).plain⟩⟩

theorem plainWord_operandText (w nw : Word) (r : Role) : PlainWord (operandText w nw r) := by
  cases r with
  | addr => exact plainWord_decimalText _
  | dest | srcA | srcB => exact plainWord_regText _

/-! ### The tokens of the line -/

/-- The operand tokens as they stand in a line, a comma at the end of every one but the last (30 R75). -/
def withCommas (ts : List (List Char)) : List (List Char) :=
  match ts with
  | [] => []
  | [t] => [t]
  | t :: rest => (t ++ [',']) :: withCommas rest

theorem withCommas_ne_nil {ts : List (List Char)} (h : ts ≠ []) : withCommas ts ≠ [] := by
  unfold withCommas
  split
  · exact absurd rfl h
  · exact List.cons_ne_nil _ _
  · exact List.cons_ne_nil _ _

theorem separateOperands_withCommas {ts : List (List Char)} (hts : ∀ t ∈ ts, PlainWord t) :
    separateOperands (withCommas ts) = some ts := by
  induction ts using withCommas.induct with
  | case1 => rfl
  | case2 t => simp [withCommas, separateOperands, (hts t (by simp)).comma_notMem]
  | case3 t rest hrest ih =>
    obtain ⟨ht, hts⟩ := List.forall_mem_cons.mp hts
    rw [withCommas.eq_3 t rest hrest, separateOperands.eq_3 _ _ (withCommas_ne_nil hrest), ih hts]
    simp [ht.ne_nil, ht.comma_notMem]

theorem tokensOf_append {c : Char} (hc : isBlank c = true) (xs ys : List Char) :
    tokensOf (xs ++ c :: ys) = tokensOf xs ++ tokensOf ys := by
  rw [tokensOf, splitAtChars_append _ _ hc, List.filter_append]
  rfl

theorem tokensOf_of_notBlank {t : List Char} (hne : t ≠ []) (ht : ∀ c ∈ t, isBlank c = false) :
    tokensOf t = [t] := by
  simp [tokensOf, splitAtChars_none _ _ ht, hne]

/-- Cutting a line at its blanks gives back what was put together. -/
theorem tokensOf_append_operandsText {x : List Char} (hx : x ≠ [])
    (hxBlank : ∀ c ∈ x, isBlank c = false) {ts : List (List Char)} (hts : ∀ t ∈ ts, PlainWord t) :
    tokensOf (x ++ operandsText ts) = x :: withCommas ts := by
  induction ts using withCommas.induct generalizing x with
  | case1 => simpa [operandsText, withCommas] using tokensOf_of_notBlank hx hxBlank
  | case2 t =>
    have ht := hts t (by simp)
    rw [operandsText, tokensOf_append rfl, tokensOf_of_notBlank hx hxBlank,
      tokensOf_of_notBlank ht.ne_nil ht.notBlank]
    rfl
  | case3 t rest hrest ih =>
    obtain ⟨ht, hts⟩ := List.forall_mem_cons.mp hts
    have hcomma : ∀ c ∈ t ++ [','], isBlank c = false :=
      List.forall_mem_append.mpr ⟨ht.notBlank, by simp [isBlank]⟩
    have htail := ih (by simp) hcomma hts
    rw [List.append_assoc, List.singleton_append] at htail
    rw [operandsText.eq_3 t rest hrest, List.cons_append, tokensOf_append rfl,
      tokensOf_of_notBlank hx hxBlank, htail, withCommas.eq_3 t rest hrest]
    rfl

/-! ### The line -/

theorem mem_operandsText {ts : List (List Char)} (hts : ∀ t ∈ ts, PlainWord t) :
    ∀ c ∈ operandsText ts, isPlain c = true ∨ c = ' ' ∨ c = ',' := by
  induction ts using withCommas.induct with
  | case1 => simp [operandsText]
  | case2 t =>
    rw [operandsText]
    exact List.forall_mem_cons.mpr ⟨by simp, fun c hc => .inl ((hts t (by simp)).plain c hc)⟩
  | case3 t rest hrest ih =>
    obtain ⟨ht, hts⟩ := List.forall_mem_cons.mp hts
    rw [operandsText.eq_3 t rest hrest, List.cons_append]
    exact List.forall_mem_cons.mpr ⟨by simp, List.forall_mem_append.mpr
      ⟨fun c hc => .inl (ht.plain c hc), List.forall_mem_cons.mpr ⟨by simp, ih hts⟩⟩⟩

theorem operandsText_ne_nil {ts : List (List Char)} (h : ts ≠ []) : operandsText ts ≠ [] := by
  unfold operandsText
  split
  · exact absurd rfl h
  · exact List.cons_ne_nil _ _
  · exact List.cons_ne_nil _ _

theorem getLast?_operandsText {ts : List (List Char)} (hts : ∀ t ∈ ts, PlainWord t) :
    ∀ c ∈ (operandsText ts).getLast?, isPlain c = true := by
  induction ts using withCommas.induct with
  | case1 => simp [operandsText]
  | case2 t =>
    have ht := hts t (by simp)
    rw [operandsText, ← List.singleton_append, List.getLast?_append_of_ne_nil _ ht.ne_nil]
    exact fun c hc => ht.plain c (List.mem_of_getLast? hc)
  | case3 t rest hrest ih =>
    rw [operandsText.eq_3 t rest hrest, ← List.singleton_append (x := ','), ← List.append_assoc,
      List.getLast?_append_of_ne_nil _ (operandsText_ne_nil hrest)]
    exact ih (List.forall_mem_cons.mp hts).2

/-- A line without a comment and with no blank at either end is clean. -/
theorem cleanLine_eq_self {l : List Char} (hcomment : ';' ∉ l)
    (hhead : ∀ c ∈ l.head?, isBlank c = false) (hlast : ∀ c ∈ l.getLast?, isBlank c = false) :
    cleanLine l = l := by
  have htake : l.takeWhile (fun c => c != ';') = l := by
    rw [List.takeWhile_eq_self_iff]
    exact fun c hc => bne_iff_ne.mpr fun h => hcomment (h ▸ hc)
  have hdrop {l : List Char} (h : ∀ c ∈ l.head?, isBlank c = false) : l.dropWhile isBlank = l := by
    cases l with
    | nil => rfl
    | cons c l => exact List.dropWhile_cons_of_neg (by simp [h c rfl])
  rw [cleanLine, htake, hdrop hhead, hdrop (by rwa [List.head?_reverse]), List.reverse_reverse]

/-- A mnemonic with its operands, as the disassembler writes them, is one line, and a clean one. -/
structure OneLine (text : List Char) : Prop where
  linesOf_eq : linesOf text = [text]
  cleanLine_eq : cleanLine text = text
  ne_nil : text ≠ []
  getLast?_ne : text.getLast? ≠ some ':'

theorem oneLine_append_operandsText {x : List Char} (hx : PlainWord x) {ts : List (List Char)}
    (hts : ∀ t ∈ ts, PlainWord t) : OneLine (x ++ operandsText ts) := by
  have hmem : ∀ c ∈ x ++ operandsText ts, isPlain c = true ∨ c = ' ' ∨ c = ',' :=
    List.forall_mem_append.mpr ⟨fun c hc => .inl (hx.plain c hc), mem_operandsText hts⟩
  have hnot {c : Char} (hc : isPlain c = false ∧ c ≠ ' ' ∧ c ≠ ',') : c ∉ x ++ operandsText ts :=
    fun h => by simpa [hc] using hmem c h
  have hhead : ∀ c ∈ (x ++ operandsText ts).head?, isPlain c = true := by
    rw [List.head?_append_of_ne_nil _ hx.ne_nil]
    exact fun c hc => hx.plain c (List.mem_of_head? hc)
  have hlast : ∀ c ∈ (x ++ operandsText ts).getLast?, isPlain c = true := by
    by_cases h : operandsText ts = []
    · rw [h, List.append_nil]
      exact fun c hc => hx.plain c (List.mem_of_getLast? hc)
    · rw [List.getLast?_append_of_ne_nil _ h]
      exact getLast?_operandsText hts
  refine ⟨splitAtChars_none _ _ fun c hc => ?_, ?_, by simp [hx.ne_nil], fun h => ?_⟩
  · exact beq_eq_false_iff_ne.mpr fun h => hnot (by decide) (h ▸ hc)
  · exact cleanLine_eq_self (hnot (by decide)) (fun c hc => not_isBlank_of_isPlain (hhead c hc))
      fun c hc => not_isBlank_of_isPlain (hlast c hc)
  · exact absurd (hlast ':' h) (by decide)

/-- A program text of one instruction line. -/
theorem OneLine.asmLines_eq {text : List Char} (h : OneLine text) {st : AsmState}
    (hline : asmLine 1 AsmState.start text = .ok st) :
    asmLines 1 AsmState.start (linesOf text) = .ok st := by
  simp [h.linesOf_eq, asmLines, h.cleanLine_eq, h.ne_nil, hline]

/-! ### The operands, read back -/

theorem findMnemonic_opName {o : Op} (ho : opDefined o = true) : findMnemonic (opName o) = some o := by
  cases o with
  | invalid22 | invalid23 | invalid24 | invalid25 | invalid26 | invalid27 | invalid28 | invalid29
  | invalid30 | invalid31 => cases ho
  | _ => rfl

theorem registerToken_regText : ∀ r : Reg, registerToken (regText r) = some r := by
  decide

/-- The register in an operand's field of an instruction word. -/
def fieldOf (w : Word) (r : Role) : Reg :=
  match r with
  | .dest => fieldD w
  | .srcA => fieldA w
  | .srcB => fieldB w
  | .addr => 0

theorem asmOperand_operandText (line : Nat) (w nw : Word) (r : Role) :
    asmOperand line r (operandText w nw r) =
      .ok (roleWeight r * (fieldOf w r).val, if r = .addr then [.word nw] else []) := by
  cases r with
  | addr => simp [asmOperand, operandText, parseNumber_decimalText, literalWord_toNat, fieldOf]
  | dest | srcA | srcB => simp [asmOperand, operandText, registerToken_regText, fieldOf]

theorem asmOperands_operandText (line : Nat) (w nw : Word) {rs : List Role} (hrs : rs.Nodup) :
    asmOperands line rs (rs.map (operandText w nw)) =
      .ok (fieldSum (fieldOf w) rs, if .addr ∈ rs then [.word nw] else []) := by
  induction rs with
  | nil => rfl
  | cons r rs ih =>
    obtain ⟨hr, hrs⟩ := List.nodup_cons.mp hrs
    rw [List.map_cons, asmOperands, asmOperand_operandText, ih hrs]
    by_cases haddr : r = .addr
    · subst haddr
      simp [hr]
    · simp [haddr, Ne.symm haddr]

/-- The mnemonic and the operands that the disassembler gives emit the words they were taken from. -/
theorem asmInstruction_operandText {w : Word} (ho : opDefined (opOf w) = true) (nw : Word)
    (line : Nat) (st : AsmState) :
    asmInstruction line st (opName (opOf w))
        (withCommas ((opOperands (opOf w)).map (operandText w nw))) =
      emit line st ((encode (decode w nw)).map .word) := by
  have hargs : separateOperands (withCommas ((opOperands (opOf w)).map (operandText w nw))) = _ :=
    separateOperands_withCommas (List.forall_mem_map.mpr fun r _ => plainWord_operandText w nw r)
  have hword := canonicalWord_eq_fieldSum (opOf w) (fieldOf w)
  simp only [asmInstruction, findMnemonic_opName ho, hargs, List.length_map, if_true,
    asmOperands_operandText line w nw (nodup_opOperands _), ← hword, encode_decode]
  cases h : opUses (opOf w) .addr <;> simp_all [opUses, fieldOf]

/-! ### The words -/

theorem resolve_placed (labels : List (List Char × Nat)) (a : Nat) (ws : List Word) :
    resolve labels (placed a (ws.map .word)) = .ok ((ws.zipIdx a).map fun p => (p.2, p.1)) := by
  induction ws generalizing a with
  | nil => rfl
  | cons w ws ih =>
    rw [List.map_cons, placed_cons, resolve, ih]
    rfl

theorem length_encode_le (i : Instr) : (encode i).length ≤ 2 := by
  cases i <;> simp [encode, encodeNext]

/-- The text of any instruction word of the 22 operations assembles to the canonical words of the
instruction that the disassembler was shown. -/
theorem assembleChars_disassembleChars {w : Word} (ho : opDefined (opOf w) = true) (nw : Word) :
    assembleChars (disassembleChars w nw) =
      .ok ((encode (decode w nw)).zipIdx.map fun p => (p.2, p.1)) := by
  have hname := plainWord_opName ho
  have hops : ∀ t ∈ (opOperands (opOf w)).map (operandText w nw), PlainWord t :=
    List.forall_mem_map.mpr fun r _ => plainWord_operandText w nw r
  have hone : OneLine (disassembleChars w nw) := oneLine_append_operandsText hname hops
  have htokens : tokensOf (disassembleChars w nw) = _ :=
    tokensOf_append_operandsText hname.ne_nil hname.notBlank hops
  have hne : (encode (decode w nw)).map Emitted.word ≠ [] := by simp [encode]
  have hfits : AsmState.start.cursor + ((encode (decode w nw)).map Emitted.word).length <
      Config.memWords := by
    have := length_encode_le (decode w nw)
    simp only [List.length_map, AsmState.start, Config.memWords]
    omega
  have hline := asmLine_instruction (line := 1) (st := AsmState.start) hone.getLast?_ne htokens
    (findMnemonic_opName ho)
  rw [asmInstruction_operandText ho, emit_eq _ _ hne, if_pos hfits] at hline
  rw [assembleChars_of_lines (hone.asmLines_eq hline)]
  exact resolve_placed _ 0 _

/-- Settles O55: what the disassembler is shown is the instruction's own encoding. -/
theorem disassembledLinesAssembleToTheSameWords :
    Obligations.DisassembledLinesAssembleToTheSameWords := by
  intro i hi
  rw [← opOf_encodeWord] at hi
  rw [assembleChars_disassembleChars hi, decode_encodeWord]

end Sys2Proof.Proofs
end

section
/-! PROOFS. The statements about NOP, MV, LI and the invalid opcode values (spec/40_move_nop.md). -/

namespace Sys2Proof.Proofs

open Sys2Proof.Machine Sys2Proof.Safety

/-! ### NOP, MV and LI -/

theorem runsAs_nop : RunsAs 0 fun _ => .nop :=
  runsAs_of_decode .nop (fun _ _ _ _ => .nop) fun w nw h => by rw [decode, h]

theorem runsAs_mv : RunsAs 1 fun s => .mv (dAt s) (aAt s) :=
  runsAs_of_decode .mv (fun d a _ _ => .mv d a) fun w nw h => by rw [decode, h]

/-- The canonical word with the places of the used fields as numbers (30 R49, R59). -/
theorem canonicalWord_eq_ofNat (o : Op) (d a b : Reg) :
    canonicalWord o d a b = BitVec.ofNat 16 (opNumber o + (if opUses o .dest then 32 * d.val else 0)
      + (if opUses o .srcA then 256 * a.val else 0)
      + (if opUses o .srcB then 2048 * b.val else 0)) := by
  rw [← canonicalWord_toNat, BitVec.ofNat_toNat, BitVec.setWidth_eq]

/-- Settles O1. -/
theorem nopAdvancesThePcOnly : Obligations.NopAdvancesThePcOnly :=
  ⟨runsAs_nop, congrArg (· :: []) (canonicalWord_eq_ofNat .nop 0 0 0),
    fun _ => ⟨_, rfl, finish_frame rfl⟩⟩

/-- Settles O2. -/
theorem mvCopiesARegister : Obligations.MvCopiesARegister :=
  ⟨runsAs_mv, fun d a => congrArg (· :: []) (canonicalWord_eq_ofNat .mv d a 0),
    fun _ _ _ => ⟨_, rfl, finishReg_frame rfl⟩⟩

/-- Settles O3. -/
theorem liLoadsTheNextWord : Obligations.LiLoadsTheNextWord :=
  ⟨runsAs_li, fun d nw => congrArg (· :: [nw]) (canonicalWord_eq_ofNat .li d 0 0),
    fun _ _ _ => ⟨_, rfl, finishReg_frame rfl⟩⟩

/-! ### The invalid opcode values -/

theorem opDefined_eq_false_iff (o : Op) : opDefined o = false ↔ 22 ≤ opNumber o := by
  rw [opDefined, decide_eq_false_iff_not, not_lt]

theorem op_decode (w nw : Word) : (decode w nw).op = opOf w := by
  have h : encodeWord (decode w nw) = canonicalWord (opOf w) (fieldD w) (fieldA w) (fieldB w) :=
    (List.cons.inj (encode_decode w nw)).1
  rw [← opOf_encodeWord, h, opOf_canonicalWord]

theorem exec_of_not_opDefined {i : Instr} (h : opDefined i.op = false) (s : State) :
    exec i s = finish s 1 := by
  cases i with
  | invalid22 | invalid23 | invalid24 | invalid25 | invalid26 | invalid27 | invalid28 | invalid29
  | invalid30 | invalid31 => rfl
  | _ => cases h

theorem step_of_invalid_opcode {s : State} (h : 22 ≤ opcodeAt s) : step s = finish s 1 := by
  refine exec_of_not_opDefined ?_ s
  rw [op_decode, opDefined_eq_false_iff, opNumber_opOf]
  exact h

/-- The disassembler's unknown marker, alone (30 R78). -/
theorem disassembleChars_of_not_opDefined {w : Word} (h : opDefined (opOf w) = false) (nw : Word) :
    disassembleChars w nw = ['?', '?', '?'] := by
  unfold disassembleChars
  cases hop : opOf w with
  | invalid22 | invalid23 | invalid24 | invalid25 | invalid26 | invalid27 | invalid28 | invalid29
  | invalid30 | invalid31 => rfl
  | _ => rw [hop] at h; cases h

/-- Settles O23: an operation outside the 22 of R51 ends one word on, has no operands, and is not among
those the assembler looks a mnemonic up in. -/
theorem invalidOpcodesActAsNop : Obligations.InvalidOpcodesActAsNop := by
  refine ⟨fun s h => ⟨_, step_of_invalid_opcode h, finish_frame rfl⟩, by decide, fun i hi s => ?_,
    fun w nw h => ?_, fun t o h => of_decide_eq_true (opDefined_of_findMnemonic h)⟩
  · have hop : opDefined i.op = false := by revert i; decide
    exact ⟨exec_of_not_opDefined hop s, _, exec_of_not_opDefined hop s, finish_frame rfl⟩
  · rw [← opNumber_opOf, ← opDefined_eq_false_iff] at h
    exact disassembleChars_of_not_opDefined h nw

end Sys2Proof.Proofs
end

section
/-! PROOFS. The statements about the loads and the stores (spec/41_load_store.md R84 to R88). -/

namespace Sys2Proof.Proofs

open Sys2Proof.Machine Sys2Proof.Safety

/-! ### The loads -/

theorem runsAs_ldind : RunsAs 4 fun s => .ldind (dAt s) (aAt s) :=
  runsAs_of_decode .ldind (fun d a _ _ => .ldind d a) fun w nw h => by rw [decode, h]

/-- Settles O4. -/
theorem ldLoadsThroughAPointer : Obligations.LdLoadsThroughAPointer :=
  ⟨runsAs_ld, fun d nw => congrArg (· :: [nw]) (canonicalWord_eq_ofNat .ld d 0 0),
    fun _ _ _ => ⟨_, rfl, finishReg_frame rfl⟩⟩

/-- Settles O5. -/
theorem ldindLoadsFromARegisterAddress : Obligations.LdindLoadsFromARegisterAddress :=
  ⟨runsAs_ldind, fun d a => congrArg (· :: []) (canonicalWord_eq_ofNat .ldind d a 0),
    fun _ _ _ => ⟨_, rfl, finishReg_frame rfl⟩⟩

/-- Settles O6: the address is the model's effective address, wrapped as R86 says. -/
theorem ldioLoadsFromBasePlusOffset : Obligations.LdioLoadsFromBasePlusOffset := by
  refine ⟨runsAs_ldio, fun d a nw => congrArg (· :: [nw]) (canonicalWord_eq_ofNat .ldio d a 0),
    fun d a nw s => ?_⟩
  obtain ⟨hload, hframe⟩ := finishReg_frame (rfl : exec (.ldio d a nw) s = .next _)
  exact ⟨_, rfl, ⟨_, effAddr_toNat s a nw, hload⟩, hframe⟩

/-! ### The stores -/

/-- Settles O7. -/
theorem stioStoresAtBasePlusOffset : Obligations.StioStoresAtBasePlusOffset :=
  ⟨runsAs_stio, fun a b nw => congrArg (· :: [nw]) (canonicalWord_eq_ofNat .stio 0 a b),
    fun a _ nw s => ⟨_, rfl, effAddr_toNat s a nw, finishMem_frame rfl⟩⟩

/-- Settles O8. -/
theorem stStoresAtTheNextWord : Obligations.StStoresAtTheNextWord :=
  ⟨runsAs_st, fun _ a => congrArg (· :: [_]) (canonicalWord_eq_ofNat .st 0 a 0),
    fun _ _ _ => ⟨_, rfl, finishMem_frame rfl⟩⟩

end Sys2Proof.Proofs
end

section
/-! PROOFS. The statements about the arithmetic and logic operations (spec/42_alu.md R90 to R98). -/

namespace Sys2Proof.Proofs

open Sys2Proof.Machine Sys2Proof.Safety

/-! ### The signed comparison by SUB and JN -/

/-- A conditional jump sets the PC, to its target or past its two words, and nothing else (43 R101). -/
theorem exists_finishBranch (s : State) (taken : Bool) (target : Word) :
    ∃ t, finishBranch s taken target = .next t ∧
      (if taken then t.pc = target else PcPast s t 2) ∧ OnlyPc s t := by
  cases taken with
  | false => exact ⟨_, rfl, finish_frame rfl⟩
  | true => exact ⟨_, rfl, finishJump_frame rfl⟩

/-- A difference that fits 16 signed bits has the sign of the wrapped difference (42 R91, 43 R106). -/
theorem condNegative_aluSub_iff {x y : Word} (hlo : -32768 ≤ x.toInt - y.toInt)
    (hhi : x.toInt - y.toInt ≤ 32767) : condNegative (aluSub x y) = true ↔ x.toInt < y.toInt := by
  have hsub := aluSub_toNat x y
  have hx := BitVec.toInt_eq_toNat_cond x
  have hy := BitVec.toInt_eq_toNat_cond y
  rw [condNegative_iff]
  split_ifs at hx hy <;> omega

/-- Settles O46: JN tests the difference SUB left in register d. -/
theorem subThenJnComparesAsSigned : Obligations.SubThenJnComparesAsSigned := by
  intro s d p q nw hlo hhi
  obtain ⟨t, ht⟩ : ∃ t, exec (.sub d p q) s = .next t := ⟨_, rfl⟩
  obtain ⟨u, hu, hpc, -⟩ := exists_finishBranch t (condNegative (t.readReg d)) nw
  refine ⟨t, u, ht, hu, ?_⟩
  simpa only [(finishReg_frame ht).1, condNegative_aluSub_iff hlo hhi] using hpc

/-! ### The words at the PC -/

theorem runsAs_add : RunsAs 7 fun s => .add (dAt s) (aAt s) (bAt s) :=
  runsAs_of_decode .add (fun d a b _ => .add d a b) fun w nw h => by rw [decode, h]

theorem runsAs_sub : RunsAs 8 fun s => .sub (dAt s) (aAt s) (bAt s) :=
  runsAs_of_decode .sub (fun d a b _ => .sub d a b) fun w nw h => by rw [decode, h]

theorem runsAs_neg : RunsAs 9 fun s => .neg (dAt s) (aAt s) :=
  runsAs_of_decode .neg (fun d a _ _ => .neg d a) fun w nw h => by rw [decode, h]

theorem runsAs_xor : RunsAs 10 fun s => .xor (dAt s) (aAt s) (bAt s) :=
  runsAs_of_decode .xor (fun d a b _ => .xor d a b) fun w nw h => by rw [decode, h]

theorem runsAs_nand : RunsAs 11 fun s => .nand (dAt s) (aAt s) (bAt s) :=
  runsAs_of_decode .nand (fun d a b _ => .nand d a b) fun w nw h => by rw [decode, h]

theorem runsAs_and : RunsAs 12 fun s => .and (dAt s) (aAt s) (bAt s) :=
  runsAs_of_decode .and (fun d a b _ => .and d a b) fun w nw h => by rw [decode, h]

theorem runsAs_or : RunsAs 13 fun s => .or (dAt s) (aAt s) (bAt s) :=
  runsAs_of_decode .or (fun d a b _ => .or d a b) fun w nw h => by rw [decode, h]

theorem runsAs_not : RunsAs 14 fun s => .not (dAt s) (aAt s) :=
  runsAs_of_decode .not (fun d a _ _ => .not d a) fun w nw h => by rw [decode, h]

/-! ### The results -/

theorem aluNeg_toNat_eq_ite (x : Word) :
    (aluNeg x).toNat = if x.toNat = 0 then 0 else 65536 - x.toNat := by
  have hx := word_lt x
  rw [aluNeg_toNat]
  split_ifs <;> omega

theorem aluXor_getLsbD (x y : Word) (k : Nat) :
    (aluXor x y).getLsbD k = (x.getLsbD k != y.getLsbD k) := BitVec.getLsbD_xor

theorem aluAnd_getLsbD (x y : Word) (k : Nat) :
    (aluAnd x y).getLsbD k = (x.getLsbD k && y.getLsbD k) := BitVec.getLsbD_and

theorem aluOr_getLsbD (x y : Word) (k : Nat) :
    (aluOr x y).getLsbD k = (x.getLsbD k || y.getLsbD k) := BitVec.getLsbD_or

/-- The effect clause of an operation that writes `v` to register d: only what is claimed of the value in
d is left to show. -/
theorem exists_finishReg {s : State} {d : Reg} {v : Word} {n : Nat} {P : State → Prop}
    (hP : ∀ t, t.readReg d = v → P t) :
    ∃ t, finishReg s d v n = .next t ∧ P t ∧ PcPast s t n ∧ OnlyReg s t d :=
  ⟨_, rfl, (finishReg_frame rfl).imp_left (hP _)⟩

/-- Settles O9. -/
theorem addWritesTheSumModulo65536 : Obligations.AddWritesTheSumModulo65536 :=
  ⟨runsAs_add, fun d a b => congrArg (· :: []) (canonicalWord_eq_ofNat .add d a b),
    fun _ _ _ _ => exists_finishReg fun _ h => h ▸ aluAdd_toNat _ _⟩

/-- Settles O10. -/
theorem subWritesTheDifferenceModulo65536 : Obligations.SubWritesTheDifferenceModulo65536 :=
  ⟨runsAs_sub, fun d a b => congrArg (· :: []) (canonicalWord_eq_ofNat .sub d a b),
    fun _ _ _ _ => exists_finishReg fun _ h => h ▸ aluSub_toNat _ _⟩

/-- Settles O11. -/
theorem negWritesTheNegationModulo65536 : Obligations.NegWritesTheNegationModulo65536 :=
  ⟨runsAs_neg, fun d a => congrArg (· :: []) (canonicalWord_eq_ofNat .neg d a 0),
    fun _ _ _ => exists_finishReg fun _ h => h ▸ aluNeg_toNat_eq_ite _⟩

/-- Settles O12. -/
theorem xorWritesTheBitwiseExclusiveOr : Obligations.XorWritesTheBitwiseExclusiveOr :=
  ⟨runsAs_xor, fun d a b => congrArg (· :: []) (canonicalWord_eq_ofNat .xor d a b),
    fun _ _ _ _ => exists_finishReg fun _ h k _ => h ▸ aluXor_getLsbD _ _ k⟩

/-- Settles O13: the word the complement is taken of is what AND would write. -/
theorem nandWritesTheComplementOfTheAnd : Obligations.NandWritesTheComplementOfTheAnd :=
  ⟨runsAs_nand, fun d a b => congrArg (· :: []) (canonicalWord_eq_ofNat .nand d a b),
    fun _ a b s => exists_finishReg fun _ h =>
      ⟨aluAnd (s.readReg a) (s.readReg b), fun k _ => aluAnd_getLsbD _ _ k, h ▸ aluNand_toNat _ _⟩⟩

/-- Settles O14. -/
theorem andWritesTheBitwiseAnd : Obligations.AndWritesTheBitwiseAnd :=
  ⟨runsAs_and, fun d a b => congrArg (· :: []) (canonicalWord_eq_ofNat .and d a b),
    fun _ _ _ _ => exists_finishReg fun _ h k _ => h ▸ aluAnd_getLsbD _ _ k⟩

/-- Settles O15. -/
theorem orWritesTheBitwiseOr : Obligations.OrWritesTheBitwiseOr :=
  ⟨runsAs_or, fun d a b => congrArg (· :: []) (canonicalWord_eq_ofNat .or d a b),
    fun _ _ _ _ => exists_finishReg fun _ h k _ => h ▸ aluOr_getLsbD _ _ k⟩

/-- Settles O16. -/
theorem notWritesTheComplement : Obligations.NotWritesTheComplement :=
  ⟨runsAs_not, fun d a => congrArg (· :: []) (canonicalWord_eq_ofNat .not d a 0),
    fun _ _ _ => exists_finishReg fun _ h => h ▸ aluNot_toNat _⟩

/-- Settles O17. -/
theorem addiWritesTheSumWithTheNextWord : Obligations.AddiWritesTheSumWithTheNextWord :=
  ⟨runsAs_addi, fun d a nw => congrArg (· :: [nw]) (canonicalWord_eq_ofNat .addi d a 0),
    fun _ _ _ _ => exists_finishReg fun _ h => h ▸ aluAdd_toNat _ _⟩

/-! ### Complement and negation -/

theorem aluNot_aluNot (x : Word) : aluNot (aluNot x) = x := BitVec.not_not

theorem aluNeg_aluNeg (x : Word) : aluNeg (aluNeg x) = x := by
  have hx := word_lt x
  rw [← BitVec.toNat_inj, aluNeg_toNat, aluNeg_toNat]
  omega

theorem aluAdd_aluNot_one (x : Word) : aluAdd (aluNot x) 1 = aluNeg x := by
  have hx := word_lt x
  have hone : (1 : Word).toNat = 1 := rfl
  rw [← BitVec.toNat_inj, aluAdd_toNat, aluNot_toNat, aluNeg_toNat, hone]
  omega

/-- Settles O45: the second operation reads what the first one wrote to r. -/
theorem complementAndNegationUndoThemselves : Obligations.ComplementAndNegationUndoThemselves := by
  intro r q s
  refine ⟨⟨_, _, rfl, rfl, ?notNot⟩, ⟨_, _, rfl, rfl, ?negNeg⟩, _, _, _, rfl, rfl, rfl, ?notAddi⟩
  case notNot => simp only [advance_readReg, writeReg_readReg_same, aluNot_aluNot]
  case negNeg => simp only [advance_readReg, writeReg_readReg_same, aluNeg_aluNeg]
  case notAddi => simp only [advance_readReg, writeReg_readReg_same, aluAdd_aluNot_one]

end Sys2Proof.Proofs
end

section
/-! PROOFS. The statements about the jump family (spec/43_jump.md R101 to R106). -/

namespace Sys2Proof.Proofs

open Sys2Proof.Machine Sys2Proof.Safety

theorem runsAs_j : RunsAs 15 fun s => .j (aAt s) :=
  runsAs_of_decode .j (fun _ a _ _ => .j a) fun w nw h => by rw [decode, h]

/-! ### The unconditional jumps -/

/-- Settles O18. -/
theorem jJumpsToTheRegister : Obligations.JJumpsToTheRegister :=
  ⟨runsAs_j, fun a => congrArg (· :: []) (canonicalWord_eq_ofNat .j 0 a 0),
    fun _ _ => ⟨_, rfl, finishJump_frame rfl⟩⟩

/-- Settles O20. -/
theorem jimmJumpsToTheNextWord : Obligations.JimmJumpsToTheNextWord :=
  ⟨runsAs_jimm, fun nw => congrArg (· :: [nw]) (canonicalWord_eq_ofNat .jimm 0 0 0),
    fun _ _ => ⟨_, rfl, finishJump_frame rfl⟩⟩

/-! ### The conditional jumps -/

theorem condNotZero_iff_toNat_ne (w : Word) : condNotZero w = true ↔ w.toNat ≠ 0 := bne_iff_ne

theorem condZero_iff_toNat_eq (w : Word) : condZero w = true ↔ w.toNat = 0 := beq_iff_eq

/-- The effect clause of a conditional jump, with the condition as the spec words it. -/
theorem exists_finishBranch_of_iff {taken : Bool} {p : Prop} [Decidable p] (hp : taken = true ↔ p)
    (s : State) (target : Word) :
    ∃ t, finishBranch s taken target = .next t ∧
      (if p then t.pc = target else PcPast s t 2) ∧ OnlyPc s t := by
  simpa only [hp] using exists_finishBranch s taken target

/-- Settles O19. -/
theorem jnzJumpsWhenNotZero : Obligations.JnzJumpsWhenNotZero :=
  ⟨runsAs_jnz, fun a nw => congrArg (· :: [nw]) (canonicalWord_eq_ofNat .jnz 0 a 0),
    fun _ nw s => exists_finishBranch_of_iff (condNotZero_iff_toNat_ne _) s nw⟩

/-- Settles O21. -/
theorem jzJumpsWhenZero : Obligations.JzJumpsWhenZero :=
  ⟨runsAs_jz, fun a nw => congrArg (· :: [nw]) (canonicalWord_eq_ofNat .jz 0 a 0),
    fun _ nw s => exists_finishBranch_of_iff (condZero_iff_toNat_eq _) s nw⟩

/-- Settles O22. -/
theorem jnJumpsWhenNegative : Obligations.JnJumpsWhenNegative :=
  ⟨runsAs_jn, fun a nw => congrArg (· :: [nw]) (canonicalWord_eq_ofNat .jn 0 a 0),
    fun _ nw s => exists_finishBranch_of_iff (condNegative_iff _) s nw⟩

/-- Settles O47: the register is 0 and JZ jumps, or it is not and JNZ does. -/
theorem jzAndJnzAreComplementary : Obligations.JzAndJnzAreComplementary := by
  intro s a nw
  obtain ⟨-, -, hjz⟩ := jzJumpsWhenZero
  obtain ⟨-, -, hjnz⟩ := jnzJumpsWhenNotZero
  obtain ⟨t, ht, hpct, -⟩ := hjz a nw s
  obtain ⟨u, hu, hpcu, -⟩ := hjnz a nw s
  refine ⟨t, u, ht, hu, ?_⟩
  by_cases h : (s.readReg a).toNat = 0
  · rw [if_pos h] at hpct
    rw [if_neg (not_not.mpr h)] at hpcu
    exact .inl ⟨hpct, hpcu⟩
  · rw [if_neg h] at hpct
    rw [if_pos h] at hpcu
    exact .inr ⟨hpct, hpcu⟩

/-! ### A jump to itself -/

theorem finishJump_pc_self (s : State) : finishJump s s.pc = .next s := rfl

theorem batch_eq_self_of_step_eq_self {s : State} (h : step s = .next s) (n : Nat) :
    batch n s = .next s := by
  induction n with
  | zero => rfl
  | succ n ih => rw [batch, h]; exact ih

/-- Settles O44: either jump sets the PC to the value it has, so its cycle answers the same state, and
so does every batch. -/
theorem selfJumpKeepsTheStateForEver : Obligations.SelfJumpKeepsTheStateForEver := by
  intro s n hself
  refine batch_eq_self_of_step_eq_self ?_ n
  obtain ⟨hop, htarget⟩ | ⟨hop, htarget⟩ := hself
  · calc step s = finishJump s (nwAt s) := runsAs_jimm s hop
      _ = .next s := by rw [htarget, finishJump_pc_self]
  · calc step s = finishJump s (s.readReg (aAt s)) := runsAs_j s hop
      _ = .next s := by rw [htarget, finishJump_pc_self]

end Sys2Proof.Proofs
end

section
/-! PROOFS. The statement about exceptions: there are none (spec/60_exceptions.md R107). -/

namespace Sys2Proof.Proofs

open Sys2Proof.Machine Sys2Proof.Safety

/-- No instruction stops in any state: each shape of an execution answers a next state. -/
theorem exists_exec_eq_next (i : Instr) (s : State) : ∃ t, exec i s = .next t := by
  obtain ⟨h, -⟩ | ⟨d, v, h, -⟩ | ⟨a, v, h, -⟩ | ⟨target, h, -⟩ := exec_shape i s
  · exact ⟨s.advance (opWords i.op), h⟩
  · exact ⟨(s.writeReg d v).advance (opWords i.op), h⟩
  · exact ⟨(s.writeMem a v).advance (opWords i.op), h⟩
  · exact ⟨s.setPc target, h⟩

/-- Settles O26. -/
theorem everyStepAnswersANextState : Obligations.EveryStepAnswersANextState :=
  ⟨exists_step_eq_next, exists_exec_eq_next⟩

end Sys2Proof.Proofs
end

section
/-! PROOFS. The statements about what the host does to the machine (spec/70_reset_and_hazards.md): a batch
of cycles, the installing of an image, and the placing of one instruction at the PC. -/

namespace Sys2Proof.Proofs

open Sys2Proof.Machine Sys2Proof.Safety

/-! ### A batch of cycles -/

theorem batch_succ {s t : State} (h : step s = .next t) (n : Nat) : batch (n + 1) s = batch n t := by
  rw [batch, h]

/-- Every batch completes, for each of its cycles does (R107). -/
theorem exists_batch_eq_next (n : Nat) (s : State) : ∃ t, batch n s = .next t := by
  induction n generalizing s with
  | zero => exact ⟨s, rfl⟩
  | succ n ih =>
    obtain ⟨t, ht⟩ := exists_step_eq_next s
    rw [batch_succ ht]
    exact ih t

theorem batch_add {m : Nat} {s t : State} (h : batch m s = .next t) (n : Nat) :
    batch (m + n) s = batch n t := by
  induction m generalizing s with
  | zero =>
    cases h
    rw [Nat.zero_add]
  | succ m ih =>
    obtain ⟨u, hu⟩ := exists_step_eq_next s
    rw [batch_succ hu] at h
    rw [Nat.succ_add, batch_succ hu]
    exact ih h

/-- Settles O27. -/
theorem batchRunsCyclesInSequence : Obligations.BatchRunsCyclesInSequence :=
  ⟨exists_batch_eq_next, fun _ => rfl, fun n _ _ h => batch_succ h n, fun _ n _ _ h => batch_add h n⟩

/-! ### Installing an image -/

@[simp] theorem overwrite_cons (m : Memory) (c : Nat × Word) (image : Image) :
    m.overwrite (c :: image) = (m.write (BitVec.ofNat 16 c.1) c.2).overwrite image := rfl

theorem toNat_ofNat_of_lt {a : Nat} (ha : a < 65536) : (BitVec.ofNat 16 a).toNat = a := by
  rw [BitVec.toNat_ofNat, Nat.mod_eq_of_lt ha]

theorem overwrite_read_of_notMem {image : Image} {a : Word} (hlt : ∀ c ∈ image, c.1 < 65536)
    (ha : a.toNat ∉ image.map Prod.fst) (m : Memory) : (m.overwrite image).read a = m.read a := by
  induction image generalizing m with
  | nil => rfl
  | cons c image ih =>
    obtain ⟨hc, hlt⟩ := List.forall_mem_cons.mp hlt
    obtain ⟨hac, ha⟩ := List.ne_and_not_mem_of_not_mem_cons ha
    have hne : a ≠ BitVec.ofNat 16 c.1 := by
      rintro rfl
      exact hac (toNat_ofNat_of_lt hc)
    rw [overwrite_cons, ih hlt ha, Memory.read_write, if_neg hne]

/-- No later word of the image is written over `c`'s, as no address stands in it twice. -/
theorem overwrite_read_of_mem {image : Image} (hnodup : (image.map Prod.fst).Nodup)
    (hlt : ∀ c ∈ image, c.1 < 65536) {c : Nat × Word} (hc : c ∈ image) (m : Memory) :
    (m.overwrite image).read (BitVec.ofNat 16 c.1) = c.2 := by
  induction image generalizing m with
  | nil => cases hc
  | cons c' image ih =>
    obtain ⟨hc', hltTail⟩ := List.forall_mem_cons.mp hlt
    obtain ⟨hnotMem, hnodupTail⟩ := List.nodup_cons.mp hnodup
    rw [overwrite_cons]
    obtain rfl | hc := List.mem_cons.mp hc
    · rw [← toNat_ofNat_of_lt hc'] at hnotMem
      rw [overwrite_read_of_notMem hltTail hnotMem, Memory.read_write, if_pos rfl]
    · exact ih hnodupTail hltTail hc _

/-- Settles O50: the reads are those of the rest of memory with the image written over it. -/
theorem installPlacesExactlyTheImage : Obligations.InstallPlacesExactlyTheImage := by
  intro s image rest hnodup hlt
  exact ⟨install_pc s rest image, fun r => install_readReg s r rest image,
    fun c hc => overwrite_read_of_mem hnodup hlt hc rest,
    fun a ha => overwrite_read_of_notMem hlt ha rest, fun hwf => Memory.wf_overwrite hwf image⟩

/-! ### Placing an instruction at the PC -/

/-- The first word of an instruction whose bits are the low `nbits` of `w`. -/
def tableWord (nbits w : Nat) : Word := BitVec.ofNat 16 (w % 2 ^ nbits)

/-- The second word of an instruction whose bits are the low `nbits` of `w`. -/
def tableNext (nbits w : Nat) : Word := BitVec.ofNat 16 (w % 2 ^ nbits / 2 ^ 16)

theorem decodeTableWord_eq (nbits w : Nat) :
    decodeTableWord nbits w = some (decode (tableWord nbits w) (tableNext nbits w)) := by
  rw [decodeTableWord, decodeWords_cons_cons]
  rfl

section
variable (s : State) (nbits w : Nat)

/-- Placing an instruction is one write at the PC, and a second one for an operation with a next word. -/
theorem withFetchWord_eq : s.withFetchWord nbits w =
    if opUses (opOf (tableWord nbits w)) .addr then
      (s.writeMem s.pc (tableWord nbits w)).writeMem (wrap16 (s.pc.toNat + 1)) (tableNext nbits w)
    else s.writeMem s.pc (tableWord nbits w) := by
  change s.storeWords s.pc
    ([tableWord nbits w, tableNext nbits w].take (opWords (opOf (tableWord nbits w)))) = _
  rw [opWords, opNextWords]
  split <;> rfl

theorem withFetchWord_pc : (s.withFetchWord nbits w).pc = s.pc := by
  rw [withFetchWord_eq]
  split <;> rfl

theorem withFetchWord_readReg (r : Reg) : (s.withFetchWord nbits w).readReg r = s.readReg r := by
  rw [withFetchWord_eq]
  split <;> rfl

theorem withFetchWord_readMem_of_ne {a : Word} (hpc : a ≠ s.pc)
    (hnext : a ≠ wrap16 (s.pc.toNat + 1)) :
    (s.withFetchWord nbits w).readMem a = s.readMem a := by
  rw [withFetchWord_eq]
  split
  · rw [writeMem_readMem, if_neg hnext, writeMem_readMem, if_neg hpc]
  · rw [writeMem_readMem, if_neg hpc]

theorem pc_ne_wrap16_succ : s.pc ≠ wrap16 (s.pc.toNat + 1) := by
  intro h
  have hnat := congrArg BitVec.toNat h
  rw [wrap16_add_one_toNat] at hnat
  omega

theorem withFetchWord_readMem_pc :
    (s.withFetchWord nbits w).readMem s.pc = tableWord nbits w := by
  rw [withFetchWord_eq]
  split
  · rw [writeMem_readMem, if_neg (pc_ne_wrap16_succ s), writeMem_readMem_same]
  · exact writeMem_readMem_same ..

/-- The next word is the placed one where the operation takes one. -/
theorem withFetchWord_nwAt (h : opUses (opOf (tableWord nbits w)) .addr = true) :
    nwAt (s.withFetchWord nbits w) = tableNext nbits w := by
  rw [nwAt, withFetchWord_pc, withFetchWord_eq, if_pos h, writeMem_readMem_same]

/-- Whatever word stands after a one-word operation, the placed instruction is what is decoded. -/
theorem decode_withFetchWord :
    decode (tableWord nbits w) (nwAt (s.withFetchWord nbits w)) =
      decode (tableWord nbits w) (tableNext nbits w) := by
  by_cases h : opUses (opOf (tableWord nbits w)) .addr = true
  · rw [withFetchWord_nwAt s nbits w h]
  · exact decode_next (if_neg h) _ _

theorem step_withFetchWord : step (s.withFetchWord nbits w) =
    exec (decode (tableWord nbits w) (tableNext nbits w)) (s.withFetchWord nbits w) := by
  rw [step_eq, withFetchWord_pc, withFetchWord_readMem_pc, decode_withFetchWord]

end

/-- Settles O25. -/
theorem placedInstructionIsTheOneThatRuns : Obligations.PlacedInstructionIsTheOneThatRuns := by
  intro s nbits w i h
  rw [decodeTableWord_eq] at h
  cases h
  exact ⟨step_withFetchWord s nbits w, withFetchWord_pc s nbits w, withFetchWord_readReg s nbits w,
    fun _ => withFetchWord_readMem_of_ne s nbits w⟩

end Sys2Proof.Proofs
end

section
/-! PROOFS. The worked encodings of the spec's vectors (spec/95_test_vectors.md): words with spare bits
and unused fields set among them (spec/30_encoding.md R50, R53). -/

namespace Sys2Proof.Proofs

open Sys2Proof.Machine

/-- Words decode to the one instruction whose encoding they are once the bits its operation does not
use are cleared. -/
theorem decode_eq_iff (w nw : Word) (i : Instr) : decode w nw = i ↔
    (canonicalWord (opOf w) (fieldD w) (fieldA w) (fieldB w) ::
      if opUses (opOf w) .addr then [nw] else []) = encode i := by
  rw [← encode_decode, encode_injective.eq_iff]

/-- Settles O38: the used parts of each written-out word are the encoding of the instruction the vector
names. V32, V5, V69, V3 and V12 have bits set outside those parts. -/
theorem writtenOutWordsDecodeAsTheSpecSays : Obligations.WrittenOutWordsDecodeAsTheSpecSays := by
  simp only [Obligations.WrittenOutWordsDecodeAsTheSpecSays, decode_eq_iff]
  decide

end Sys2Proof.Proofs
end
